-- ==== Sys2Proof/Word.lean ====
section
/-! DEFINITION. The value types of the block: bytes, 16-bit words, the operand fields of an instruction word, and a
register index (spec/00_scope.md R7, R9, R11, R12). -/

namespace Sys2Proof

/-- An 8-bit value: a general register, a timer, a memory cell, the immediate `nn` (R7). -/
abbrev Byte := BitVec 8

/-- A 16-bit value: `PC`, `I`, a stack entry, an instruction word (R7, R9). -/
abbrev Word := BitVec 16

/-- The 12-bit address field `nnn` (R9, R94). -/
abbrev Addr := BitVec 12

/-- The 4-bit count field `n` (R9, R94). -/
abbrev Nibble := BitVec 4

/-- The index of a general register `V0` to `VF` (R12, R94). -/
abbrev Reg := Fin 16

/-- `hi ++ lo` (R11, R57): the word whose most-significant byte is `hi`. -/
def Word.ofBytes (hi lo : Byte) : Word := hi ++ lo

/-- `w[15:8]` (R9). -/
def Word.hiByte (w : Word) : Byte := w.extractLsb' 8 8

/-- `w[7:0]` (R9). -/
def Word.loByte (w : Word) : Byte := w.extractLsb' 0 8

end Sys2Proof
end

