-- ==== Sys2Proof/Syntax.lean ====
section
/-! DEFINITION. The instructions: one constructor per row of spec/opcode_table.json, in the table's order
(spec/30_encoding.md R98). Operands are the fields R94 gives the row, and nothing else. -/

namespace Sys2Proof

/-- The 35 instructions (R2, R98). -/
inductive Instr where
  /-- 00E0, `CLS` (R110). -/
  | cls
  /-- 00EE, `RET` (R132). -/
  | ret
  /-- 0NNN, `SYS nnn`: a call in this block (R133). -/
  | sys (nnn : Addr)
  /-- 1NNN, `JP nnn` (R134). -/
  | jp (nnn : Addr)
  /-- 2NNN, `CALL nnn` (R135). -/
  | call (nnn : Addr)
  /-- 3XNN, `SE Vx, nn` (R136). -/
  | seVxNn (x : Reg) (nn : Byte)
  /-- 4XNN, `SNE Vx, nn` (R137). -/
  | sneVxNn (x : Reg) (nn : Byte)
  /-- 5XY0, `SE Vx, Vy` (R138). -/
  | seVxVy (x y : Reg)
  /-- 6XNN, `LD Vx, nn` (R160). -/
  | ldVxNn (x : Reg) (nn : Byte)
  /-- 7XNN, `ADD Vx, nn` (R161). -/
  | addVxNn (x : Reg) (nn : Byte)
  /-- 8XY0, `LD Vx, Vy` (R162). -/
  | ldVxVy (x y : Reg)
  /-- 8XY1, `OR Vx, Vy` (R163). -/
  | orVxVy (x y : Reg)
  /-- 8XY2, `AND Vx, Vy` (R164). -/
  | andVxVy (x y : Reg)
  /-- 8XY3, `XOR Vx, Vy` (R165). -/
  | xorVxVy (x y : Reg)
  /-- 8XY4, `ADD Vx, Vy` (R166). -/
  | addVxVy (x y : Reg)
  /-- 8XY5, `SUB Vx, Vy` (R167). -/
  | subVxVy (x y : Reg)
  /-- 8XY6, `SHR Vx, Vy`: `y` is decoded and not used (R94, R168). -/
  | shrVxVy (x y : Reg)
  /-- 8XY7, `SUBN Vx, Vy` (R169). -/
  | subnVxVy (x y : Reg)
  /-- 8XYE, `SHL Vx, Vy`: `y` is decoded and not used (R94, R170). -/
  | shlVxVy (x y : Reg)
  /-- 9XY0, `SNE Vx, Vy` (R139). -/
  | sneVxVy (x y : Reg)
  /-- ANNN, `LD I, nnn` (R190). -/
  | ldINnn (nnn : Addr)
  /-- BNNN, `JP V0, nnn` (R140). -/
  | jpV0Nnn (nnn : Addr)
  /-- CXNN, `RND Vx, nn` (R171). -/
  | rndVxNn (x : Reg) (nn : Byte)
  /-- DXYN, `DRW Vx, Vy, n` (R111). -/
  | drwVxVyN (x y : Reg) (n : Nibble)
  /-- EX9E, `SKP Vx` (R211). -/
  | skpVx (x : Reg)
  /-- EXA1, `SKNP Vx` (R212). -/
  | sknpVx (x : Reg)
  /-- FX07, `LD Vx, DT` (R213). -/
  | ldVxDt (x : Reg)
  /-- FX0A, `LD Vx, K` (R214). -/
  | ldVxK (x : Reg)
  /-- FX15, `LD DT, Vx` (R215). -/
  | ldDtVx (x : Reg)
  /-- FX18, `LD ST, Vx` (R216). -/
  | ldStVx (x : Reg)
  /-- FX1E, `ADD I, Vx` (R191). -/
  | addIVx (x : Reg)
  /-- FX29, `LD F, Vx` (R192). -/
  | ldFVx (x : Reg)
  /-- FX33, `LD B, Vx` (R193). -/
  | ldBVx (x : Reg)
  /-- FX55, `LD [I], Vx` (R194). -/
  | ldMemVx (x : Reg)
  /-- FX65, `LD Vx, [I]` (R195). -/
  | ldVxMem (x : Reg)
  deriving DecidableEq, Repr

end Sys2Proof
end

