-- ==== Sys2Proof/WellFormed.lean ====
section
/-! DEFINITION. Which terms of `Instr` are instructions of the block. The operand types already bound every field; what
is left is that 0NNN covers the group-0 words OTHER than 0x00E0 and 0x00EE (spec/30_encoding.md R86, R98). -/

namespace Sys2Proof

/-- An address a 0NNN word can carry: 0x0E0 and 0x0EE are the words of 00E0 and 00EE (R86). -/
abbrev sysAddrOk (nnn : Addr) : Prop := nnn ≠ 0x0E0 ∧ nnn ≠ 0x0EE

/-- The check: the instruction has a word of its own, which decodes back to it (R98, the "excludes" of row 3). -/
def Instr.wellFormed : Instr → Bool
  | .sys nnn => decide (sysAddrOk nnn)
  | _ => true

/-- The check as a proposition. -/
abbrev Instr.WellFormed (i : Instr) : Prop := i.wellFormed = true

end Sys2Proof
end

