-- ==== Sys2Proof/Decode.lean ====
section
/-! DEFINITION. The decoder (spec/30_encoding.md R83 to R94), the encoder written from the same tables (R84, R98), and the
opcode map as match and mask (R98). -/

namespace Sys2Proof

/-! ### The decoder -/

/-- Why bytes are not an instruction. `illegalWord`: the word is in no row of the table (R92); a step then reports a decode
failure (R231), which is no fault. `truncated`: fewer than the two bytes every instruction has (R83); raised by
`decodeBytes` only, never in a step. Both are safe. -/
inductive DecodeError where
  | illegalWord (w : Word)
  | truncated
  deriving DecidableEq, Repr

/-- `g = w[15:12]`, the opcode group (R9). -/
def fieldGroup (w : Word) : Nat := (w.extractLsb' 12 4).toNat

/-- `x = w[11:8]` (R9). -/
def fieldX (w : Word) : Reg := (w.extractLsb' 8 4).toFin

/-- `y = w[7:4]` (R9). -/
def fieldY (w : Word) : Reg := (w.extractLsb' 4 4).toFin

/-- `n = w[3:0]` (R9). -/
def fieldN (w : Word) : Nibble := w.extractLsb' 0 4

/-- `nn = w[7:0]` (R9). -/
def fieldNn (w : Word) : Byte := w.extractLsb' 0 8

/-- `nnn = w[11:0]` (R9). -/
def fieldNnn (w : Word) : Addr := w.extractLsb' 0 12

/-- Group 0x0: two whole words, every other word 0NNN (R86). -/
def decodeGroup0 (w : Word) : Except DecodeError Instr :=
  if w = 0x00E0 then .ok .cls
  else if w = 0x00EE then .ok .ret
  else .ok (.sys (fieldNnn w))

/-- Group 0x8 dispatches on `n` (R87). -/
def decodeGroup8 (w : Word) : Except DecodeError Instr :=
  match (fieldN w).toNat with
  | 0x0 => .ok (.ldVxVy (fieldX w) (fieldY w))
  | 0x1 => .ok (.orVxVy (fieldX w) (fieldY w))
  | 0x2 => .ok (.andVxVy (fieldX w) (fieldY w))
  | 0x3 => .ok (.xorVxVy (fieldX w) (fieldY w))
  | 0x4 => .ok (.addVxVy (fieldX w) (fieldY w))
  | 0x5 => .ok (.subVxVy (fieldX w) (fieldY w))
  | 0x6 => .ok (.shrVxVy (fieldX w) (fieldY w))
  | 0x7 => .ok (.subnVxVy (fieldX w) (fieldY w))
  | 0xE => .ok (.shlVxVy (fieldX w) (fieldY w))
  | _ => .error (.illegalWord w)

/-- Group 0xE dispatches on `nn` (R88). -/
def decodeGroupE (w : Word) : Except DecodeError Instr :=
  match (fieldNn w).toNat with
  | 0x9E => .ok (.skpVx (fieldX w))
  | 0xA1 => .ok (.sknpVx (fieldX w))
  | _ => .error (.illegalWord w)

/-- Group 0xF dispatches on `nn` (R89). -/
def decodeGroupF (w : Word) : Except DecodeError Instr :=
  match (fieldNn w).toNat with
  | 0x07 => .ok (.ldVxDt (fieldX w))
  | 0x0A => .ok (.ldVxK (fieldX w))
  | 0x15 => .ok (.ldDtVx (fieldX w))
  | 0x18 => .ok (.ldStVx (fieldX w))
  | 0x1E => .ok (.addIVx (fieldX w))
  | 0x29 => .ok (.ldFVx (fieldX w))
  | 0x33 => .ok (.ldBVx (fieldX w))
  | 0x55 => .ok (.ldMemVx (fieldX w))
  | 0x65 => .ok (.ldVxMem (fieldX w))
  | _ => .error (.illegalWord w)

/-- `Decode(w)` of R80: dispatch on the group, then on the rest of the word (R85 to R91). Groups 0x5 and 0x9 match only
with `n = 0` (R90; DESIGN CHOICE of the spec, D1). -/
def decode (w : Word) : Except DecodeError Instr :=
  match fieldGroup w with
  | 0x0 => decodeGroup0 w
  | 0x1 => .ok (.jp (fieldNnn w))
  | 0x2 => .ok (.call (fieldNnn w))
  | 0x3 => .ok (.seVxNn (fieldX w) (fieldNn w))
  | 0x4 => .ok (.sneVxNn (fieldX w) (fieldNn w))
  | 0x5 => if fieldN w = 0 then .ok (.seVxVy (fieldX w) (fieldY w)) else .error (.illegalWord w)
  | 0x6 => .ok (.ldVxNn (fieldX w) (fieldNn w))
  | 0x7 => .ok (.addVxNn (fieldX w) (fieldNn w))
  | 0x8 => decodeGroup8 w
  | 0x9 => if fieldN w = 0 then .ok (.sneVxVy (fieldX w) (fieldY w)) else .error (.illegalWord w)
  | 0xA => .ok (.ldINnn (fieldNnn w))
  | 0xB => .ok (.jpV0Nnn (fieldNnn w))
  | 0xC => .ok (.rndVxNn (fieldX w) (fieldNn w))
  | 0xD => .ok (.drwVxVyN (fieldX w) (fieldY w) (fieldN w))
  | 0xE => decodeGroupE w
  | 0xF => decodeGroupF w
  | _ => .error (.illegalWord w)

/-- The instruction at the head of a list of bytes and the bytes after it: two bytes, the most-significant first
(R59, R81, R83). -/
def decodeBytes : List Byte → Except DecodeError (Instr × List Byte)
  | hi :: lo :: rest => (decode (Word.ofBytes hi lo)).map (·, rest)
  | _ => .error .truncated

/-! ### The encoder -/

/-- A register index as a word, ready to be shifted to its field (R84). -/
def regBits (x : Reg) : Word := (BitVec.ofFin (w := 4) x).setWidth 16

/-- Format `NNN` (R84): `base | nnn`. -/
def formatNnn (base : Word) (nnn : Addr) : Word := base ||| nnn.setWidth 16

/-- Formats `XNN` and `XS` (R84): `base | x << 8 | nn`, `nn` the immediate or the fixed sub-operation. -/
def formatXnn (base : Word) (x : Reg) (nn : Byte) : Word := base ||| regBits x <<< 8 ||| nn.setWidth 16

/-- Formats `XYN` and `XYS` (R84): `base | x << 8 | y << 4 | n`, `n` the count or the fixed sub-operation. -/
def formatXyn (base : Word) (x y : Reg) (n : Nibble) : Word :=
  base ||| regBits x <<< 8 ||| regBits y <<< 4 ||| n.setWidth 16

/-- The word of an instruction (R84, R98). On `.sys 0x0E0` and `.sys 0x0EE`, which
are not well formed, it gives the words of `CLS` and `RET`. -/
def encode : Instr → Word
  | .cls => 0x00E0
  | .ret => 0x00EE
  | .sys nnn => formatNnn 0x0000 nnn
  | .jp nnn => formatNnn 0x1000 nnn
  | .call nnn => formatNnn 0x2000 nnn
  | .seVxNn x nn => formatXnn 0x3000 x nn
  | .sneVxNn x nn => formatXnn 0x4000 x nn
  | .seVxVy x y => formatXyn 0x5000 x y 0x0
  | .ldVxNn x nn => formatXnn 0x6000 x nn
  | .addVxNn x nn => formatXnn 0x7000 x nn
  | .ldVxVy x y => formatXyn 0x8000 x y 0x0
  | .orVxVy x y => formatXyn 0x8000 x y 0x1
  | .andVxVy x y => formatXyn 0x8000 x y 0x2
  | .xorVxVy x y => formatXyn 0x8000 x y 0x3
  | .addVxVy x y => formatXyn 0x8000 x y 0x4
  | .subVxVy x y => formatXyn 0x8000 x y 0x5
  | .shrVxVy x y => formatXyn 0x8000 x y 0x6
  | .subnVxVy x y => formatXyn 0x8000 x y 0x7
  | .shlVxVy x y => formatXyn 0x8000 x y 0xE
  | .sneVxVy x y => formatXyn 0x9000 x y 0x0
  | .ldINnn nnn => formatNnn 0xA000 nnn
  | .jpV0Nnn nnn => formatNnn 0xB000 nnn
  | .rndVxNn x nn => formatXnn 0xC000 x nn
  | .drwVxVyN x y n => formatXyn 0xD000 x y n
  | .skpVx x => formatXnn 0xE000 x 0x9E
  | .sknpVx x => formatXnn 0xE000 x 0xA1
  | .ldVxDt x => formatXnn 0xF000 x 0x07
  | .ldVxK x => formatXnn 0xF000 x 0x0A
  | .ldDtVx x => formatXnn 0xF000 x 0x15
  | .ldStVx x => formatXnn 0xF000 x 0x18
  | .addIVx x => formatXnn 0xF000 x 0x1E
  | .ldFVx x => formatXnn 0xF000 x 0x29
  | .ldBVx x => formatXnn 0xF000 x 0x33
  | .ldMemVx x => formatXnn 0xF000 x 0x55
  | .ldVxMem x => formatXnn 0xF000 x 0x65

/-- The two bytes of an instruction in memory order, the most-significant first (R59). -/
def encodeBytes (i : Instr) : List Byte := [(encode i).hiByte, (encode i).loByte]

/-! ### The opcode map -/

/-- A row of R98: a word `w` matches it when `w AND mask = value`. -/
structure OpcodeRow where
  value : Word
  mask : Word
  deriving DecidableEq, Repr

/-- The word matches the row (R98). -/
abbrev OpcodeRow.Matches (r : OpcodeRow) (w : Word) : Prop := w &&& r.mask = r.value

/-- The 35 rows of R98, in its order; row 3 (index 2) applies only where rows 1 and 2 do not match. -/
def opcodeRows : List OpcodeRow :=
  [⟨0x00E0, 0xFFFF⟩, ⟨0x00EE, 0xFFFF⟩, ⟨0x0000, 0xF000⟩, ⟨0x1000, 0xF000⟩, ⟨0x2000, 0xF000⟩, ⟨0x3000, 0xF000⟩,
    ⟨0x4000, 0xF000⟩, ⟨0x5000, 0xF00F⟩, ⟨0x6000, 0xF000⟩, ⟨0x7000, 0xF000⟩, ⟨0x8000, 0xF00F⟩, ⟨0x8001, 0xF00F⟩] ++
  [⟨0x8002, 0xF00F⟩, ⟨0x8003, 0xF00F⟩, ⟨0x8004, 0xF00F⟩, ⟨0x8005, 0xF00F⟩, ⟨0x8006, 0xF00F⟩, ⟨0x8007, 0xF00F⟩,
    ⟨0x800E, 0xF00F⟩, ⟨0x9000, 0xF00F⟩, ⟨0xA000, 0xF000⟩, ⟨0xB000, 0xF000⟩, ⟨0xC000, 0xF000⟩, ⟨0xD000, 0xF000⟩] ++
  [⟨0xE09E, 0xF0FF⟩, ⟨0xE0A1, 0xF0FF⟩, ⟨0xF007, 0xF0FF⟩, ⟨0xF00A, 0xF0FF⟩, ⟨0xF015, 0xF0FF⟩, ⟨0xF018, 0xF0FF⟩,
    ⟨0xF01E, 0xF0FF⟩, ⟨0xF029, 0xF0FF⟩, ⟨0xF033, 0xF0FF⟩, ⟨0xF055, 0xF0FF⟩, ⟨0xF065, 0xF0FF⟩]

/-- The index in `opcodeRows` of the instruction's row (R98, column #, less one). -/
def Instr.row : Instr → Nat
  | .cls => 0
  | .ret => 1
  | .sys _ => 2
  | .jp _ => 3
  | .call _ => 4
  | .seVxNn _ _ => 5
  | .sneVxNn _ _ => 6
  | .seVxVy _ _ => 7
  | .ldVxNn _ _ => 8
  | .addVxNn _ _ => 9
  | .ldVxVy _ _ => 10
  | .orVxVy _ _ => 11
  | .andVxVy _ _ => 12
  | .xorVxVy _ _ => 13
  | .addVxVy _ _ => 14
  | .subVxVy _ _ => 15
  | .shrVxVy _ _ => 16
  | .subnVxVy _ _ => 17
  | .shlVxVy _ _ => 18
  | .sneVxVy _ _ => 19
  | .ldINnn _ => 20
  | .jpV0Nnn _ => 21
  | .rndVxNn _ _ => 22
  | .drwVxVyN _ _ _ => 23
  | .skpVx _ => 24
  | .sknpVx _ => 25
  | .ldVxDt _ => 26
  | .ldVxK _ => 27
  | .ldDtVx _ => 28
  | .ldStVx _ => 29
  | .addIVx _ => 30
  | .ldFVx _ => 31
  | .ldBVx _ => 32
  | .ldMemVx _ => 33
  | .ldVxMem _ => 34

/-! ### The table's numbering of an instruction's bits -/

/-- The bytes, in memory order, of the instruction whose bits spec/opcode_table.json numbers as `w`: bit 0 is the word's
bit 0 (R9), and the bits above `nbits` are zero. -/
def tableBytes (nbits w : Nat) : List Byte :=
  let word : Word := BitVec.ofNat 16 (w % 2 ^ nbits)
  [word.hiByte, word.loByte]

/-- The instruction the decoder reads from those bytes. -/
def decodeTableWord (nbits w : Nat) : Option Instr :=
  match decodeBytes (tableBytes nbits w) with
  | .ok (i, _) => some i
  | .error _ => none

end Sys2Proof
end

