-- ==== Sys2Proof/Config.lean ====
section
/-! DEFINITION. The fixed parameters of the block (spec/00_scope.md R7) and its open ones (R8): the values the spec leaves
open are opaque constants, so no proof can depend on what they are. -/

namespace Sys2Proof

/-- `MEM_SIZE`: addresses 0x000 to 0xFFF (R7, R50). -/
@[simp] abbrev Config.memSize : Nat := 4096

/-- `PROG_BASE`: the program load address, the entry point and the write-guard boundary (R7, R56, R271). -/
@[simp] abbrev Config.progBase : Nat := 0x200

/-- `FONT_SIZE`: 16 glyphs of 5 bytes from address 0x000 (R7, R65). -/
@[simp] abbrev Config.fontSize : Nat := 80

/-- `GLYPH_BYTES` (R7, R192). -/
@[simp] abbrev Config.glyphBytes : Nat := 5

/-- `STACK_DEPTH` (R7, R28). -/
@[simp] abbrev Config.stackDepth : Nat := 16

/-- `FB_W` (R7, R113). -/
@[simp] abbrev Config.fbWidth : Nat := 64

/-- `FB_H` (R7, R113). -/
@[simp] abbrev Config.fbHeight : Nat := 32

/-- `FONT`, the open parameter of R8 and R65 (D19): the byte at address `a` of the glyph table, for `a` below 80.
FREE VALUE (assumption 1). -/
opaque Config.font : Nat → Byte

/-- `INIT_FB`, the open parameter of R8 and R35 (D17): the cell at column `c`, row `r` after `State.reset`.
FREE VALUE (assumption 2). -/
opaque Config.initFb : Fin 64 → Fin 32 → Bool

/-- `draw_byte()` of R12 and R171 (D15): the byte of the `k`-th draw. FREE VALUE (assumption 3). -/
opaque Config.drawByte : Nat → Byte

/-- `choose k with Key[k] = true` of R214 (D13): what picks among the pressed keys at the `k`-th draw.
FREE VALUE (assumption 4). -/
opaque Config.keyChoice : Nat → Nat

end Sys2Proof
end

