-- ==== Sys2Proof/Machine/State.lean ====
section
/-! DEFINITION. The state of the block (spec/10_state.md R20 to R39) with the host's key state beside it (R36), the reasons a
step can stop (spec/60_exceptions.md R233, R234), and the state after reset (spec/70_reset_and_hazards.md R270). -/

namespace Sys2Proof.Machine

/-! ### Why a step stops -/

/-- The kind of a memory access that faulted (R55, R234). -/
inductive Access where
  | fetch
  | read
  | write
  deriving DecidableEq, Repr

/-- Why an address is out of range (R234). `belowProgramBoundary` occurs only with `Access.write`. -/
inductive Reason where
  | beyondSpace
  | belowProgramBoundary
  deriving DecidableEq, Repr

/-- The contract violations of R234, causes 2 to 5, with the info R234 records; `pc` is the address of the faulting
instruction. A fault ends the session: the spec leaves the state after it unspecified (R233), so a fault carries none. -/
inductive Fault where
  /-- Raised by the fetch of any step, by `DXYN` and `FX65` (read), by `FX33` and `FX55` (write); `addr` is the first bad
  address, an unbounded integer (R58). Safe: the spec's own outcome. -/
  | addressOutOfRange (addr : Nat) (access : Access) (reason : Reason) (pc : Word)
  /-- Raised by `2NNN` and `0NNN` with 16 return addresses held (R130). Safe: the spec's own outcome. -/
  | stackOverflow (pc : Word) (depth : Nat)
  /-- Raised by `00EE` with none held (R131). Safe: the spec's own outcome. -/
  | stackUnderflow (pc : Word) (depth : Nat)
  /-- Raised by `EX9E` and `EXA1` with `Vx` above 15 (R210, D12). Safe: the spec's own outcome, and it claims nothing. -/
  | keyIndexOutOfRange (pc : Word) (value : Byte)
  deriving DecidableEq, Repr

/-- What the model gives no meaning. No step answers one. -/
inductive Refusal where
  /-- An instruction with no meaning yet; raised by an arm of `exec` only, and no arm raises it. Safe. -/
  | notModelled (mnemonic : String)
  /-- A `load` that breaks the host's duty (R252, D21, U14); raised by `hostAct` only. Safe: the spec gives it no meaning. -/
  | loadOutsideDuty (address length : Nat)
  deriving DecidableEq, Repr

/-- The outcome the latest step reported to the host (R230), where the state goes on; the other outcome, `Fault`, is
`Host.Outcome.fault`. -/
inductive Report where
  /-- No step since reset. -/
  | none
  /-- R236. -/
  | ok
  /-- R235: the `FX0A` wait. -/
  | held
  /-- R231: the word matches no row of the table; `pc` is the address it was fetched from. -/
  | decodeFailure (word : Word) (pc : Word)
  deriving DecidableEq, Repr

/-! ### The state -/

/-- `Mem` (R34, R50): the cells that differ from what an unlisted address reads as, by rising address. -/
abbrev Memory := List Host.Cell

/-- `FB[c][r]` (R35, R53): 64 columns of 32 one-bit cells. -/
abbrev Framebuffer := Vector (Vector Bool 32) 64

/-- The block's state (R20), the host's key state (R36), and two fields of the model's own (`draws`, `report`). -/
structure State where
  /-- `V0` to `VF` (R21, R22). -/
  v : Vector Byte 16
  /-- The index register `I` (R27). -/
  i : Word
  /-- The program counter `PC` (R24 to R26). -/
  pc : Word
  /-- The stack pointer `SP`: the number of return addresses held, 0 to 16 (R28). -/
  sp : Fin 17
  /-- `Stack[0]` to `Stack[15]` (R29). -/
  stack : Vector Word 16
  /-- The delay timer `DT` (R30). -/
  dt : Byte
  /-- The sound timer `ST` (R31). -/
  st : Byte
  /-- `Mem` (R34). -/
  mem : Memory
  /-- `FB` (R35). -/
  fb : Framebuffer
  /-- `redraw_flag` (R32). -/
  redrawFlag : Bool
  /-- `sound_flag` (R33). -/
  soundFlag : Bool
  /-- `Key[0]` to `Key[15]`, an input the host owns; no step writes it (R36). -/
  keys : Vector Bool 16
  /-- THE MODEL'S OWN: how many free values have been drawn (for `Rng`, R37, D15; assumption 5). -/
  draws : Nat
  /-- THE MODEL'S OWN: what the latest step reported (R230; assumption 7). No step reads it. -/
  report : Report
  deriving DecidableEq, Repr

/-- The state after `initialize` (R270), with `INIT_MEM` reading as `Memory.unlisted` says (assumption 6), `INIT_FB` free
(assumption 2) and no key pressed (assumption 8). -/
def State.reset : State where
  v := Vector.replicate 16 0
  i := 0
  pc := 0x200
  sp := 0
  stack := Vector.replicate 16 0
  dt := 0
  st := 0
  mem := []
  fb := Vector.ofFn fun c => Vector.ofFn fun r => Config.initFb c r
  redrawFlag := false
  soundFlag := false
  keys := Vector.replicate 16 false
  draws := 0
  report := .none

/-- How a step, or a host interaction, answers. -/
abbrev Result := Host.Outcome State Fault Refusal

end Sys2Proof.Machine
end

