-- ==== Sys2Proof/Machine/Ops.lean ====
section
/-! DEFINITION. The named operations every instruction is built from: registers, memory with its address decoder and write
guard (spec/20_memory.md R55 to R58), the call stack (spec/41_control_flow.md R130, R131), framebuffer cells
(spec/20_memory.md R53), free values, and the parts of the step cycle around an instruction (spec/30_encoding.md R80):
fetch, advance, timer tick, completion, hold and decode failure. The block has no trap mechanism (R238): there is no
exception entry and no return from one to model; a contract violation is the fault outcome, raised here. -/

namespace Sys2Proof.Machine

/-! ### Registers -/

/-- `V[x]` (R12). -/
def State.reg (s : State) (x : Reg) : Byte := s.v[x]

/-- `V[x] <- b` (R12). -/
def State.setReg (s : State) (x : Reg) (b : Byte) : State := { s with v := s.v.set x b }

/-- `VF <- b` (R22). -/
def State.setVF (s : State) (b : Byte) : State := s.setReg 15 b

/-- `I <- w` (R27). -/
def State.setI (s : State) (w : Word) : State := { s with i := w }

/-- `PC <- w` (R24). -/
def State.setPc (s : State) (w : Word) : State := { s with pc := w }

/-- `DT <- b` (R30). -/
def State.setDt (s : State) (b : Byte) : State := { s with dt := b }

/-- `ST <- b` (R31). -/
def State.setSt (s : State) (b : Byte) : State := { s with st := b }

/-- `redraw_flag <- true` (R32, R114). -/
def State.raiseRedraw (s : State) : State := { s with redrawFlag := true }

/-- The memory after a write. -/
def State.setMem (s : State) (m : Memory) : State := { s with mem := m }

/-- The framebuffer after a write. -/
def State.setFb (s : State) (fb : Framebuffer) : State := { s with fb := fb }

/-- The outcome a step reports (R230). -/
def State.setReport (s : State) (r : Report) : State := { s with report := r }

/-! ### Memory -/

/-- What an address that is not listed reads as: the free font byte below 80 (R65), 0x00 elsewhere
(DESIGN CHOICE, unsafe: assumption 6). -/
def Memory.unlisted (a : Nat) : Byte := if a < Config.fontSize then Config.font a else 0x00

/-- The byte listed at `a`. -/
def Memory.lookup : Memory → Nat → Option Byte
  | [], _ => none
  | (b, v) :: rest, a => if a = b then some v else Memory.lookup rest a

/-- `Mem[a]`. -/
def Memory.peek (m : Memory) (a : Nat) : Byte := (m.lookup a).getD (Memory.unlisted a)

/-- List `v` at `a`, keeping the order. -/
def Memory.insert : Memory → Nat → Byte → Memory
  | [], a, v => [(a, v)]
  | (b, u) :: rest, a, v =>
    if a < b then (a, v) :: (b, u) :: rest
    else if a = b then (a, v) :: rest
    else (b, u) :: Memory.insert rest a v

/-- List nothing at `a`. -/
def Memory.erase (m : Memory) (a : Nat) : Memory := m.filter (fun c => c.1 ≠ a)

/-- `Mem[a] <- v`, in the canonical form: the byte an unlisted address reads as is not listed. -/
def Memory.poke (m : Memory) (a : Nat) (v : Byte) : Memory :=
  if v = Memory.unlisted a then m.erase a else m.insert a v

/-- `Mem[a + i] <- bytes[i]` for each byte, with no check (R63, R252). -/
def Memory.pokeBytes : Memory → Nat → List Byte → Memory
  | m, _, [] => m
  | m, a, b :: rest => (m.poke a b).pokeBytes (a + 1) rest

/-- The canonical form: addresses strictly rising and inside the address space, no byte an unlisted address reads as. -/
abbrev Memory.wf (m : Memory) : Prop :=
  (m.map Prod.fst).Pairwise (· < ·) ∧ ∀ c ∈ m, c.1 < 4096 ∧ c.2 ≠ Memory.unlisted c.1

/-- `MemRead(a, 1)` (R55), for the instruction at `pc0`. -/
def memRead (kind : Access) (pc0 : Word) (a : Nat) (s : State) : Except Fault Byte :=
  if Config.memSize ≤ a then .error (.addressOutOfRange a kind .beyondSpace pc0) else .ok (s.mem.peek a)

/-- `MemWrite(a, 1, v)` with the write guard (R56, R63), for the instruction at `pc0`. -/
def memWrite (pc0 : Word) (a : Nat) (v : Byte) (s : State) : Except Fault State :=
  if Config.memSize ≤ a then .error (.addressOutOfRange a .write .beyondSpace pc0)
  else if a < Config.progBase then .error (.addressOutOfRange a .write .belowProgramBoundary pc0)
  else .ok (s.setMem (s.mem.poke a v))

/-- `MemRead(a, 2)` (R57): two byte reads, the one at `a` first and most significant. Only a fetch makes it. -/
def memReadWord (pc0 : Word) (a : Nat) (s : State) : Except Fault Word :=
  match memRead .fetch pc0 a s with
  | .error f => .error f
  | .ok hi =>
    match memRead .fetch pc0 (a + 1) s with
    | .error f => .error f
    | .ok lo => .ok (Word.ofBytes hi lo)

/-- `MemWrite(a + k, 1, b_k)` for the bytes `b_0, b_1, …` in order (R61: the accesses of `FX33` and `FX55`). -/
def memWriteBytes (pc0 : Word) : Nat → List Byte → State → Except Fault State
  | _, [], s => .ok s
  | a, b :: rest, s =>
    match memWrite pc0 a b s with
    | .error f => .error f
    | .ok t => memWriteBytes pc0 (a + 1) rest t

/-- `V[k] <- MemRead(a, 1)` for each register of the list, at rising addresses from `a` (R61, R195: the accesses of
`FX65`). -/
def memLoadRegs (pc0 : Word) : Nat → List Reg → State → Except Fault State
  | _, [], s => .ok s
  | a, k :: rest, s =>
    match memRead .read pc0 a s with
    | .error f => .error f
    | .ok b => memLoadRegs pc0 (a + 1) rest (s.setReg k b)

/-! ### The call stack -/

/-- `Push(v)` (R130; the slot layout is the spec's D25). -/
def push (pc0 : Word) (v : Word) (s : State) : Except Fault State :=
  if h : s.sp.val < 16 then
    .ok { s with stack := s.stack.set s.sp.val v, sp := ⟨s.sp.val + 1, by omega⟩ }
  else .error (.stackOverflow pc0 s.sp.val)

/-- `Pop()` (R131): the state after, and the return address. -/
def pop (pc0 : Word) (s : State) : Except Fault (State × Word) :=
  if h : 0 < s.sp.val then
    .ok ({ s with sp := ⟨s.sp.val - 1, by omega⟩ }, s.stack[s.sp.val - 1])
  else .error (.stackUnderflow pc0 s.sp.val)

/-! ### Framebuffer cells -/

/-- `FB[c][r]`. -/
def Framebuffer.cell (fb : Framebuffer) (c : Fin 64) (r : Fin 32) : Bool := fb[c][r]

/-- `FB[c][r] <- FB[c][r] XOR 1`. -/
def Framebuffer.flip (fb : Framebuffer) (c : Fin 64) (r : Fin 32) : Framebuffer :=
  fb.set c (fb[c].set r (!fb[c][r]))

/-- Every cell 0 (R110). -/
def Framebuffer.clear : Framebuffer := Vector.replicate 64 (Vector.replicate 32 false)

/-- The column a sprite's pixel column `c` falls on, wrapped (R111, R113). -/
def wrapColumn (px c : Nat) : Fin 64 := Fin.ofNat 64 (px + c)

/-- The row a sprite's row `r` falls on, wrapped (R111, R113). -/
def wrapRow (py r : Nat) : Fin 32 := Fin.ofNat 32 (py + r)

/-- One set pixel of a sprite: the collision test, then the flip (R111). -/
def drawPixel (c : Fin 64) (r : Fin 32) (s : State) : State :=
  (if s.fb.cell c r then s.setVF 1 else s).setFb (s.fb.flip c r)

/-- Pixel columns `c`, `c + 1`, … (`k` of them) of one row of a sprite, bit `7 - c` of `b` being column `c` (R111). -/
def drawColumns (b : Byte) (px : Nat) (row : Fin 32) : Nat → Nat → State → State
  | 0, _, s => s
  | k + 1, c, s =>
    drawColumns b px row k (c + 1) (if b.getLsbD (7 - c) then drawPixel (wrapColumn px c) row s else s)

/-- Rows `r`, `r + 1`, … (`k` of them) of the sprite at address `base`, the value of `I`, which no row changes (R111): each
row's byte is read, then its eight pixels drawn. -/
def drawRows (pc0 : Word) (base px py : Nat) : Nat → Nat → State → Except Fault State
  | 0, _, s => .ok s
  | k + 1, r, s =>
    match memRead .read pc0 (base + r) s with
    | .error f => .error f
    | .ok b => drawRows pc0 base px py k (r + 1) (drawColumns b px (wrapRow py r) 8 0 s)

/-! ### Free values -/

/-- `draw_byte()` (R12, R171): a fresh byte, and the state after drawing it (assumptions 3, 5). -/
def drawByte (s : State) : Byte × State := (Config.drawByte s.draws, { s with draws := s.draws + 1 })

/-- The pressed keys, in rising order (R214). -/
def pressedKeys (s : State) : List (Fin 16) := (List.finRange 16).filter (fun k => s.keys[k])

/-- `choose k with Key[k] = true` (R214): a free choice among the pressed keys, and the state after it
(assumptions 4, 5). With no key pressed it answers key 0; `FX0A` then holds and does not ask. -/
def chooseKey (s : State) : Fin 16 × State :=
  ((pressedKeys s).getD (Config.keyChoice s.draws % (pressedKeys s).length) 0, { s with draws := s.draws + 1 })

/-! ### The step cycle -/

/-- `w := MemRead(pc0, 2)` (R80, R81). -/
def fetch (s : State) : Except Fault Word := memReadWord s.pc s.pc.toNat s

/-- `PC <- (pc0 + 2) mod 2^16` (R80, R82). -/
def advance (s : State) : State := s.setPc (s.pc + 2)

/-- A timer one step later: it does not wrap below 0 (R244). -/
def countDown (b : Byte) : Byte := if b = 0 then 0 else b - 1

/-- `TimerTick()` (R244, R245). -/
def timerTick (s : State) : State :=
  { s with
    dt := countDown s.dt
    st := countDown s.st
    soundFlag := s.soundFlag || (s.st ≠ 0 && countDown s.st = 0) }

/-- The part of `step` from the advance of `PC` on, for an instruction whose own rule is `body` (R80, R236): advance,
execute, tick, report `Ok`; a fault `body` raises ends it at once (R233). -/
def complete (body : State → Except Fault State) (s : State) : Result :=
  match body (advance s) with
  | .error f => .fault f
  | .ok t => .next ((timerTick t).setReport .ok)

/-- `Held` (R235): nothing is written, and the step reports it. -/
def hold (s : State) : Result := .next (s.setReport .held)

/-- `DecodeFailure(w, pc0)` (R80, R231): `PC` is advanced, the timers tick, nothing else changes; the host may go on. -/
def failDecode (w : Word) (s : State) : Result :=
  .next ((timerTick (advance s)).setReport (.decodeFailure w s.pc))

/-! ### The codes of the causes -/

/-- The code of a contract violation: causes 2 to 5 of R234 (the spec's own numbering, D32). -/
def Fault.code : Fault → Nat
  | .addressOutOfRange _ _ _ _ => 2
  | .stackOverflow _ _ => 3
  | .stackUnderflow _ _ => 4
  | .keyIndexOutOfRange _ _ => 5

/-- The code of a reported outcome: a decode failure is cause 1 of R234, though no fault (D32); `Ok` and `Held` have none. -/
def Report.code : Report → Option Nat
  | .decodeFailure _ _ => some 1
  | .none | .ok | .held => Option.none

/-- The code of the cause a step ended with, if it ended with one of the five of R234 (D32). -/
def causeCode : Result → Option Nat
  | .next t => t.report.code
  | .fault f => some f.code
  | .refused _ => none

end Sys2Proof.Machine
end

