-- ==== Sys2Proof/Machine/Operands.lean ====
section
/-! DEFINITION. Operand assembly (spec/30_encoding.md R94): how a field or a register becomes the value an instruction uses.
Nothing is sign-extended, scaled or shifted. -/

namespace Sys2Proof.Machine

/-- `zext_16(nnn)` (R10, R94). -/
def zextAddr (nnn : Addr) : Word := nnn.setWidth 16

/-- `zext_16(b)` (R10). -/
def zextByte (b : Byte) : Word := b.setWidth 16

/-- The address `I + k`, an unbounded integer (R58). -/
def indexAddr (s : State) (k : Nat) : Nat := s.i.toNat + k

/-- The registers `V0` to `Vx` in rising order, `x + 1` of them (R94, R194, R195). -/
def regsUpTo (x : Reg) : List Reg := (List.range (x.val + 1)).map (Fin.ofNat 16)

/-- The values of `V0` to `Vx` in rising order (R194). -/
def regValues (s : State) (x : Reg) : List Byte := (regsUpTo x).map s.reg

/-- The three decimal digits of `v`: hundreds, tens, units (R193). -/
def bcdDigits (v : Byte) : List Byte :=
  [BitVec.ofNat 8 (v.toNat / 100), BitVec.ofNat 8 (v.toNat / 10 % 10), BitVec.ofNat 8 (v.toNat % 10)]

/-- The address of the glyph of `v`, `v * 5`, not reduced (R192, D28). -/
def glyphAddr (v : Byte) : Word := BitVec.ofNat 16 (v.toNat * Config.glyphBytes)

/-- `KeyPressed(v)` (R210), for the instruction at `pc0`. -/
def keyPressed (pc0 : Word) (v : Byte) (s : State) : Except Fault Bool :=
  if h : v.toNat < 16 then .ok s.keys[v.toNat] else .error (.keyIndexOutOfRange pc0 v)

/-- `Key[k] = false` for every `k` (R80, R214). -/
def noKeyPressed (s : State) : Bool := (pressedKeys s).isEmpty

/-- `PC <- PC + 2` when the condition holds: a skip passes over one word (R136, R142). -/
def skipIf (c : Bool) (s : State) : State := if c then s.setPc (s.pc + 2) else s

end Sys2Proof.Machine
end

