-- ==== Sys2Proof/Machine/Flags.lean ====
section
/-! DEFINITION. The results and the `VF` flags of the register arithmetic (spec/42_register_alu.md R161 to R172), computed on
unsigned integers as the rules write them and reduced at the end. -/

namespace Sys2Proof.Machine

/-- A flag as a byte: 1 or 0. -/
def flagByte (b : Bool) : Byte := if b then 1 else 0

/-- `(a + b) mod 256` (R161, R166, R172). -/
def addByte (a b : Byte) : Byte := BitVec.ofNat 8 ((a.toNat + b.toNat) % 256)

/-- The carry of `8XY4`: the 9-bit sum exceeds 255 (R166, R172). -/
def carryOf (a b : Byte) : Bool := decide (255 < a.toNat + b.toNat)

/-- `(a - b) mod 256`: 256 is added to a negative difference (R167, R169, R172). -/
def subByte (a b : Byte) : Byte := BitVec.ofNat 8 ((a.toNat + 256 - b.toNat) % 256)

/-- The not-borrow flag of `a - b`: 1 when the difference is not negative (R167, R169, R172). -/
def notBorrowOf (a b : Byte) : Bool := !decide (a.toNat < b.toNat)

/-- `a AND 1`, the bit `8XY6` shifts out (R168). -/
def shiftedOutRight (a : Byte) : Byte := a &&& 1

/-- `a >> 1`, logical (R168). -/
def shiftRight (a : Byte) : Byte := BitVec.ofNat 8 (a.toNat / 2)

/-- `a >> 7`, the bit `8XYE` shifts out (R170). -/
def shiftedOutLeft (a : Byte) : Byte := BitVec.ofNat 8 (a.toNat / 128)

/-- `(a << 1) mod 256` (R170, R172). -/
def shiftLeft (a : Byte) : Byte := BitVec.ofNat 8 (a.toNat * 2 % 256)

end Sys2Proof.Machine
end

