-- ==== Sys2Proof/Machine/ControlFlow.lean ====
section
/-! DEFINITION. The control-flow family (spec/41_control_flow.md R130 to R144). -/

namespace Sys2Proof.Machine

/-- `Push(PC); PC <- target` (R133, R135). -/
def callTo (pc0 target : Word) (s : State) : Except Fault State :=
  (push pc0 s.pc s).map (·.setPc target)

/-- 00EE (R132): the popped address is used as it is. -/
def execRet (s : State) : Result :=
  complete (fun t => (pop s.pc t).map fun r => r.1.setPc r.2) s

/-- 0NNN (R133): in this block a call. -/
def execSys (nnn : Addr) (s : State) : Result := complete (callTo s.pc (zextAddr nnn)) s

/-- 1NNN (R134). -/
def execJp (nnn : Addr) (s : State) : Result := complete (fun t => .ok (t.setPc (zextAddr nnn))) s

/-- 2NNN (R135). -/
def execCall (nnn : Addr) (s : State) : Result := complete (callTo s.pc (zextAddr nnn)) s

/-- 3XNN (R136). -/
def execSeVxNn (x : Reg) (nn : Byte) (s : State) : Result :=
  complete (fun t => .ok (skipIf (t.reg x = nn) t)) s

/-- 4XNN (R137). -/
def execSneVxNn (x : Reg) (nn : Byte) (s : State) : Result :=
  complete (fun t => .ok (skipIf (t.reg x ≠ nn) t)) s

/-- 5XY0 (R138). -/
def execSeVxVy (x y : Reg) (s : State) : Result :=
  complete (fun t => .ok (skipIf (t.reg x = t.reg y) t)) s

/-- 9XY0 (R139). -/
def execSneVxVy (x y : Reg) (s : State) : Result :=
  complete (fun t => .ok (skipIf (t.reg x ≠ t.reg y) t)) s

/-- BNNN (R140): the sum is not reduced to 12 bits. -/
def execJpV0Nnn (nnn : Addr) (s : State) : Result :=
  complete (fun t => .ok (t.setPc (zextAddr nnn + zextByte (t.reg 0)))) s

end Sys2Proof.Machine
end

