-- ==== Sys2Proof/Machine/Display.lean ====
section
/-! DEFINITION. The display family (spec/40_display.md R110 to R115). -/

namespace Sys2Proof.Machine

/-- 00E0 (R110). -/
def execCls (s : State) : Result :=
  complete (fun t => .ok (t.setFb Framebuffer.clear).raiseRedraw) s

/-- DXYN (R111): both coordinates are read before `VF` is cleared (D11); the redraw flag is raised at the end. -/
def execDrwVxVyN (x y : Reg) (n : Nibble) (s : State) : Result :=
  complete (fun t =>
    (drawRows s.pc (indexAddr t 0) (t.reg x).toNat (t.reg y).toNat n.toNat 0 (t.setVF 0)).map State.raiseRedraw) s

end Sys2Proof.Machine
end

