-- ==== Sys2Proof/Machine/IndexMemory.lean ====
section
/-! DEFINITION. The index-register and memory-transfer family (spec/43_index_memory.md R190 to R196). -/

namespace Sys2Proof.Machine

/-- ANNN (R190). -/
def execLdINnn (nnn : Addr) (s : State) : Result :=
  complete (fun t => .ok (t.setI (zextAddr nnn))) s

/-- FX1E (R191): modulo 2^16 (D7), no flag. -/
def execAddIVx (x : Reg) (s : State) : Result :=
  complete (fun t => .ok (t.setI (t.i + zextByte (t.reg x)))) s

/-- FX29 (R192). -/
def execLdFVx (x : Reg) (s : State) : Result :=
  complete (fun t => .ok (t.setI (glyphAddr (t.reg x)))) s

/-- FX33 (R193): `I` is not changed. -/
def execLdBVx (x : Reg) (s : State) : Result :=
  complete (fun t => memWriteBytes s.pc (indexAddr t 0) (bcdDigits (t.reg x)) t) s

/-- `I <- (I + x + 1) mod 2^16`, the advance that ends `FX55` and `FX65` (R194, R195). -/
def advanceIndex (x : Reg) (s : State) : State := s.setI (s.i + BitVec.ofNat 16 (x.val + 1))

/-- FX55 (R194). -/
def execLdMemVx (x : Reg) (s : State) : Result :=
  complete (fun t => (memWriteBytes s.pc (indexAddr t 0) (regValues t x) t).map (advanceIndex x)) s

/-- FX65 (R195). -/
def execLdVxMem (x : Reg) (s : State) : Result :=
  complete (fun t => (memLoadRegs s.pc (indexAddr t 0) (regsUpTo x) t).map (advanceIndex x)) s

end Sys2Proof.Machine
end

