-- ==== Sys2Proof/Machine/RegisterAlu.lean ====
section
/-! DEFINITION. The register and arithmetic family (spec/42_register_alu.md R160 to R172). Where a rule writes both `Vx` and
`VF`, the writes stand in the rule's order, so the last one wins when `x = 15` (D9, D10). -/

namespace Sys2Proof.Machine

/-- 6XNN (R160). -/
def execLdVxNn (x : Reg) (nn : Byte) (s : State) : Result :=
  complete (fun t => .ok (t.setReg x nn)) s

/-- 7XNN (R161): no carry. -/
def execAddVxNn (x : Reg) (nn : Byte) (s : State) : Result :=
  complete (fun t => .ok (t.setReg x (addByte (t.reg x) nn))) s

/-- 8XY0 (R162). -/
def execLdVxVy (x y : Reg) (s : State) : Result :=
  complete (fun t => .ok (t.setReg x (t.reg y))) s

/-- 8XY1 (R163): `VF` is not reset. -/
def execOrVxVy (x y : Reg) (s : State) : Result :=
  complete (fun t => .ok (t.setReg x (t.reg x ||| t.reg y))) s

/-- 8XY2 (R164): `VF` is not reset. -/
def execAndVxVy (x y : Reg) (s : State) : Result :=
  complete (fun t => .ok (t.setReg x (t.reg x &&& t.reg y))) s

/-- 8XY3 (R165): `VF` is not reset. -/
def execXorVxVy (x y : Reg) (s : State) : Result :=
  complete (fun t => .ok (t.setReg x (t.reg x ^^^ t.reg y))) s

/-- 8XY4 (R166): `VF`, the carry, is written last. -/
def execAddVxVy (x y : Reg) (s : State) : Result :=
  complete (fun t =>
    .ok ((t.setReg x (addByte (t.reg x) (t.reg y))).setVF (flagByte (carryOf (t.reg x) (t.reg y))))) s

/-- 8XY5 (R167): `VF`, the not-borrow flag, is written last. -/
def execSubVxVy (x y : Reg) (s : State) : Result :=
  complete (fun t =>
    .ok ((t.setReg x (subByte (t.reg x) (t.reg y))).setVF (flagByte (notBorrowOf (t.reg x) (t.reg y))))) s

/-- `VF <- Vx AND 1; Vx <- Vx >> 1`, the second reading what the first wrote (R168, D9). -/
def shiftRightReg (x : Reg) (s : State) : State :=
  let t := s.setVF (shiftedOutRight (s.reg x))
  t.setReg x (shiftRight (t.reg x))

/-- 8XY6 (R168): `y` is ignored. -/
def execShrVxVy (x _y : Reg) (s : State) : Result := complete (fun t => .ok (shiftRightReg x t)) s

/-- 8XY7 (R169): `VF`, the not-borrow flag, is written last. -/
def execSubnVxVy (x y : Reg) (s : State) : Result :=
  complete (fun t =>
    .ok ((t.setReg x (subByte (t.reg y) (t.reg x))).setVF (flagByte (notBorrowOf (t.reg y) (t.reg x))))) s

/-- `VF <- Vx >> 7; Vx <- (Vx << 1) mod 256`, the second reading what the first wrote (R170, D9). -/
def shiftLeftReg (x : Reg) (s : State) : State :=
  let t := s.setVF (shiftedOutLeft (s.reg x))
  t.setReg x (shiftLeft (t.reg x))

/-- 8XYE (R170): `y` is ignored. -/
def execShlVxVy (x _y : Reg) (s : State) : Result := complete (fun t => .ok (shiftLeftReg x t)) s

/-- CXNN (R171): the drawn byte is a free value (assumption 3). -/
def execRndVxNn (x : Reg) (nn : Byte) (s : State) : Result :=
  complete (fun t => .ok ((drawByte t).2.setReg x ((drawByte t).1 &&& nn))) s

end Sys2Proof.Machine
end

