-- ==== Sys2Proof/Machine/TimersInput.lean ====
section
/-! DEFINITION. The timer and key-input family (spec/44_timers_input.md R210 to R216). -/

namespace Sys2Proof.Machine

/-- EX9E (R211). -/
def execSkpVx (x : Reg) (s : State) : Result :=
  complete (fun t => (keyPressed s.pc (t.reg x) t).map fun p => skipIf p t) s

/-- EXA1 (R212). -/
def execSknpVx (x : Reg) (s : State) : Result :=
  complete (fun t => (keyPressed s.pc (t.reg x) t).map fun p => skipIf (!p) t) s

/-- FX07 (R213): the value before this step's tick. -/
def execLdVxDt (x : Reg) (s : State) : Result :=
  complete (fun t => .ok (t.setReg x t.dt)) s

/-- FX0A (R214): with no key pressed the step is held; otherwise `Vx` is the index of some pressed key, a free choice
(assumption 4). -/
def execLdVxK (x : Reg) (s : State) : Result :=
  if noKeyPressed s then hold s
  else complete (fun t => .ok ((chooseKey t).2.setReg x (BitVec.ofNat 8 (chooseKey t).1.val))) s

/-- FX15 (R215). -/
def execLdDtVx (x : Reg) (s : State) : Result :=
  complete (fun t => .ok (t.setDt (t.reg x))) s

/-- FX18 (R216). -/
def execLdStVx (x : Reg) (s : State) : Result :=
  complete (fun t => .ok (t.setSt (t.reg x))) s

end Sys2Proof.Machine
end

