-- ==== Sys2Proof/Machine/HostInterface.lean ====
section
/-! DEFINITION. What the host can do to the block between steps (spec/60_exceptions.md R250 to R257): `initialize`, `load`,
setting a key, clearing a flag, viewing the framebuffer; and how the model places one instruction at `PC`. No step does
any of these. -/

namespace Sys2Proof.Machine

/-- `INIT_MEM` as listed cells (R8, R34): the addresses 0x050 to 0xFFF whose byte differs from an unlisted one. -/
def initialCells (initMem : Nat → Byte) : Memory :=
  ((List.range' Config.fontSize (Config.memSize - Config.fontSize)).filter
    (fun a => initMem a ≠ Memory.unlisted a)).map (fun a => (a, initMem a))

/-- `INIT_FB` as cells (R8, R35). -/
def initialFb (initFb : Fin 64 → Fin 32 → Bool) : Framebuffer :=
  Vector.ofFn fun c => Vector.ofFn fun r => initFb c r

/-- `initialize()` (R251, R270), for every value of the open parameters `INIT_MEM` and `INIT_FB`. The keys are the host's
and stay (R36); so does the count of free values, so that no value is drawn twice (assumption 5). -/
def State.initialized (initMem : Nat → Byte) (initFb : Fin 64 → Fin 32 → Bool) (s : State) : State where
  v := Vector.replicate 16 0
  i := 0
  pc := 0x200
  sp := 0
  stack := Vector.replicate 16 0
  dt := 0
  st := 0
  mem := initialCells initMem
  fb := initialFb initFb
  redrawFlag := false
  soundFlag := false
  keys := s.keys
  draws := s.draws
  report := .none

/-- The host's duty for `load` (R252). -/
abbrev loadDuty (bytes : List Byte) (a : Nat) : Prop :=
  Config.progBase ≤ a ∧ a + bytes.length ≤ Config.memSize

/-- What the host may do between steps, and nothing else (R250, R257). -/
inductive HostAction where
  /-- `initialize()`, whatever the open parameters are (R251). -/
  | start (initMem : Nat → Byte) (initFb : Fin 64 → Fin 32 → Bool)
  /-- `load(bytes, address)` (R252). -/
  | load (bytes : List Byte) (address : Nat)
  /-- Set one key state to any value (R254). -/
  | setKey (k : Fin 16) (pressed : Bool)
  /-- Set `redraw_flag` to false (R255). -/
  | clearRedraw
  /-- Set `sound_flag` to false (R255). -/
  | clearSound

/-- The effect of a host action. A `load` that breaks the host's duty is refused: the spec gives it no meaning
(R252, D21, U14). -/
def hostAct (act : HostAction) (s : State) : Result :=
  match act with
  | .start initMem initFb => .next (s.initialized initMem initFb)
  | .load bytes a =>
    if loadDuty bytes a then .next (s.setMem (s.mem.pokeBytes a bytes))
    else .refused (.loadOutsideDuty a bytes.length)
  | .setKey k pressed => .next { s with keys := s.keys.set k pressed }
  | .clearRedraw => .next { s with redrawFlag := false }
  | .clearSound => .next { s with soundFlag := false }

/-- `framebuffer`: the host's read-only view of the 64 x 32 cells (R256). -/
def State.framebuffer (s : State) : Framebuffer := s.fb

/-- The bytes of one instruction stored where the next step fetches, addresses past the space left out; it stands for the
host's `load` (assumption 12). -/
def State.placeAtPc (s : State) (bytes : List Byte) : State :=
  if s.pc.toNat + bytes.length ≤ Config.memSize then s.setMem (s.mem.pokeBytes s.pc.toNat bytes) else s

end Sys2Proof.Machine
end

