-- ==== Sys2Proof/Machine/Step.lean ====
section
/-! DEFINITION. `step` (spec/30_encoding.md R80): fetch, decode, then the instruction or the decode failure. -/

namespace Sys2Proof.Machine

/-- One step (R80). A fetch fault comes first, then a decode failure, then what the instruction does (R237). -/
def step (s : State) : Host.Outcome State Fault Refusal :=
  match fetch s with
  | .error f => .fault f
  | .ok w =>
    match decode w with
    | .error _ => failDecode w s
    | .ok i => exec i s

/-- `s` with the instruction whose bits spec/opcode_table.json numbers as `w` stored at `PC`, most-significant byte first
(assumption 12). -/
def State.withFetchWord (s : State) (nbits w : Nat) : State := s.placeAtPc (tableBytes nbits w)

end Sys2Proof.Machine
end

