-- ==== Sys2Proof/Safety.lean ====
section
/-! DEFINITION. The terms the claims use: what a completed instruction leaves alone, how its step ends, the invariant of
every session, and which states a session reaches. -/

namespace Sys2Proof.Machine

/-! ### What a completed instruction leaves alone -/

/-- The parts of the state, beside the general registers, the timers and `PC`, that an instruction may write. -/
inductive Part where
  | index
  | stack
  | memory
  | framebuffer
  | redraw
  | draws
  deriving DecidableEq, Repr

/-- The frame: every general register outside `dests` and every part outside `writes` is as before, every byte of memory
read one by one; and the keys are as before, whatever the instruction (R36). -/
def Keeps (writes : List Part) (dests : List Reg) (s t : State) : Prop :=
  (∀ r, r ∉ dests → t.reg r = s.reg r) ∧
  (.index ∉ writes → t.i = s.i) ∧
  (.stack ∉ writes → t.sp = s.sp ∧ t.stack = s.stack) ∧
  (.memory ∉ writes → ∀ a, t.mem.peek a = s.mem.peek a) ∧
  (.framebuffer ∉ writes → t.fb = s.fb) ∧
  (.redraw ∉ writes → t.redrawFlag = s.redrawFlag) ∧
  (.draws ∉ writes → t.draws = s.draws) ∧
  t.keys = s.keys

/-- The end of a step that went on from the timer values `dt` and `st`: each timer is one less, not below 0; the sound flag
is raised exactly when `st` was 1, and never lowered (R244, R245). -/
def Ticks (dt st : Byte) (s t : State) : Prop :=
  t.dt.toNat = dt.toNat - 1 ∧ t.st.toNat = st.toNat - 1 ∧
  (t.soundFlag = true ↔ s.soundFlag = true ∨ st = 1)

/-! ### The tables of the spec, instruction by instruction -/

/-- The general registers an instruction may write (spec/10_state.md R22, R23). -/
def regsWritten : Instr → List Reg
  | .cls | .ret | .sys _ | .jp _ | .call _ | .seVxNn _ _ | .sneVxNn _ _ | .seVxVy _ _ | .sneVxVy _ _ => []
  | .ldINnn _ | .jpV0Nnn _ | .skpVx _ | .sknpVx _ | .ldDtVx _ | .ldStVx _ | .addIVx _ | .ldFVx _ => []
  | .ldBVx _ | .ldMemVx _ => []
  | .ldVxNn x _ | .addVxNn x _ | .ldVxVy x _ | .orVxVy x _ | .andVxVy x _ | .xorVxVy x _ => [x]
  | .rndVxNn x _ | .ldVxDt x | .ldVxK x => [x]
  | .addVxVy x _ | .subVxVy x _ | .shrVxVy x _ | .subnVxVy x _ | .shlVxVy x _ => [x, 15]
  | .drwVxVyN _ _ _ => [15]
  | .ldVxMem x => (List.finRange 16).filter (· ≤ x)

/-- The other parts an instruction may write: `I` (R27), the stack (R28), memory (R61), the framebuffer (R35), the redraw
flag (R32), and the model's own count of free values. -/
def partsWritten : Instr → List Part
  | .cls | .drwVxVyN _ _ _ => [.framebuffer, .redraw]
  | .ret | .sys _ | .call _ => [.stack]
  | .ldINnn _ | .addIVx _ | .ldFVx _ | .ldVxMem _ => [.index]
  | .ldBVx _ => [.memory]
  | .ldMemVx _ => [.memory, .index]
  | .rndVxNn _ _ | .ldVxK _ => [.draws]
  | .jp _ | .seVxNn _ _ | .sneVxNn _ _ | .seVxVy _ _ | .sneVxVy _ _ | .jpV0Nnn _ | .skpVx _ | .sknpVx _ => []
  | .ldVxNn _ _ | .addVxNn _ _ | .ldVxVy _ _ | .orVxVy _ _ | .andVxVy _ _ | .xorVxVy _ _ => []
  | .addVxVy _ _ | .subVxVy _ _ | .shrVxVy _ _ | .subnVxVy _ _ | .shlVxVy _ _ => []
  | .ldVxDt _ | .ldDtVx _ | .ldStVx _ => []

/-- A skip: past the next word when the condition holds (R25). -/
def SkipsWhen (c : Prop) (s t : State) : Prop := (c → t.pc = s.pc + 4) ∧ (¬ c → t.pc = s.pc + 2)

/-- `PC` at the end of an instruction's step, `s` having `PC` at the instruction (R25). -/
def PcAfter (s t : State) : Instr → Prop
  | .sys nnn | .jp nnn | .call nnn => t.pc.toNat = nnn.toNat
  | .ret => ∃ k : Fin 16, k.val + 1 = s.sp.val ∧ t.pc = s.stack[k]
  | .jpV0Nnn nnn => t.pc.toNat = nnn.toNat + (s.reg 0).toNat
  | .seVxNn x nn => SkipsWhen (s.reg x = nn) s t
  | .sneVxNn x nn => SkipsWhen (s.reg x ≠ nn) s t
  | .seVxVy x y => SkipsWhen (s.reg x = s.reg y) s t
  | .sneVxVy x y => SkipsWhen (s.reg x ≠ s.reg y) s t
  | .skpVx x => SkipsWhen (∃ k : Fin 16, k.val = (s.reg x).toNat ∧ s.keys[k] = true) s t
  | .sknpVx x => SkipsWhen (∃ k : Fin 16, k.val = (s.reg x).toNat ∧ s.keys[k] = false) s t
  | .ldVxK _ => if ∀ k : Fin 16, s.keys[k] = false then t.pc = s.pc else t.pc = s.pc + 2
  | .cls | .ldVxNn _ _ | .addVxNn _ _ | .ldVxVy _ _ | .orVxVy _ _ | .andVxVy _ _ | .xorVxVy _ _ => t.pc = s.pc + 2
  | .addVxVy _ _ | .subVxVy _ _ | .shrVxVy _ _ | .subnVxVy _ _ | .shlVxVy _ _ | .ldINnn _ => t.pc = s.pc + 2
  | .rndVxNn _ _ | .drwVxVyN _ _ _ | .ldVxDt _ | .ldDtVx _ | .ldStVx _ | .addIVx _ | .ldFVx _ => t.pc = s.pc + 2
  | .ldBVx _ | .ldMemVx _ | .ldVxMem _ => t.pc = s.pc + 2

/-- A run of `n` bytes from `I` that stays inside the address space (R55). -/
abbrev ReadsInside (s : State) (n : Nat) : Prop := n = 0 ∨ s.i.toNat + n ≤ 4096

/-- A run of `n` bytes from `I` that stays inside the program/data region (R56). -/
abbrev WritesInside (s : State) (n : Nat) : Prop := 0x200 ≤ s.i.toNat ∧ s.i.toNat + n ≤ 4096

/-- Where an instruction commits no contract violation (R234): it then completes, but for `FX0A` with no key pressed, which
is held and completes nothing (R235, R285). -/
def MayComplete (s : State) : Instr → Prop
  | .sys _ | .call _ => s.sp.val < 16
  | .ret => 0 < s.sp.val
  | .drwVxVyN _ _ n => ReadsInside s n.toNat
  | .ldVxMem x => ReadsInside s (x.val + 1)
  | .ldBVx _ => WritesInside s 3
  | .ldMemVx x => WritesInside s (x.val + 1)
  | .skpVx x | .sknpVx x => (s.reg x).toNat ≤ 15
  | .cls | .jp _ | .seVxNn _ _ | .sneVxNn _ _ | .seVxVy _ _ | .sneVxVy _ _ | .jpV0Nnn _ => True
  | .ldVxNn _ _ | .addVxNn _ _ | .ldVxVy _ _ | .orVxVy _ _ | .andVxVy _ _ | .xorVxVy _ _ => True
  | .addVxVy _ _ | .subVxVy _ _ | .shrVxVy _ _ | .subnVxVy _ _ | .shlVxVy _ _ | .rndVxNn _ _ => True
  | .ldINnn _ | .addIVx _ | .ldFVx _ | .ldVxDt _ | .ldVxK _ | .ldDtVx _ | .ldStVx _ => True

/-- The contract violation an instruction can commit, with the info R234 records, `s` having `PC` at the instruction. The
first bad address of a run of bytes from `I` is `I` itself or the first past the space (R237). -/
def FaultOf (s : State) (f : Fault) : Instr → Prop
  | .sys _ | .call _ => f = .stackOverflow s.pc 16
  | .ret => f = .stackUnderflow s.pc 0
  | .drwVxVyN _ _ _ | .ldVxMem _ => f = .addressOutOfRange (max s.i.toNat 4096) .read .beyondSpace s.pc
  | .ldBVx _ | .ldMemVx _ =>
    if s.i.toNat < 0x200 then f = .addressOutOfRange s.i.toNat .write .belowProgramBoundary s.pc
    else f = .addressOutOfRange (max s.i.toNat 4096) .write .beyondSpace s.pc
  | .skpVx x | .sknpVx x => f = .keyIndexOutOfRange s.pc (s.reg x)
  | .cls | .jp _ | .seVxNn _ _ | .sneVxNn _ _ | .seVxVy _ _ | .sneVxVy _ _ | .jpV0Nnn _ => False
  | .ldVxNn _ _ | .addVxNn _ _ | .ldVxVy _ _ | .orVxVy _ _ | .andVxVy _ _ | .xorVxVy _ _ => False
  | .addVxVy _ _ | .subVxVy _ _ | .shrVxVy _ _ | .subnVxVy _ _ | .shlVxVy _ _ | .rndVxNn _ _ => False
  | .ldINnn _ | .addIVx _ | .ldFVx _ | .ldVxDt _ | .ldVxK _ | .ldDtVx _ | .ldStVx _ => False

/-- `DT` as the tick of an instruction's step finds it: `FX15` has just written it (R215, R281). -/
def dtAtTick (s : State) : Instr → Byte
  | .ldDtVx x => s.reg x
  | _ => s.dt

/-- `ST` as the tick of an instruction's step finds it: `FX18` has just written it (R216, R281). -/
def stAtTick (s : State) : Instr → Byte
  | .ldStVx x => s.reg x
  | _ => s.st

/-! ### Sprites -/

/-- The `n`-row sprite at `I` has a set pixel that lands on column `c`, row `r` of the framebuffer, drawn from column `px`,
row `py` with wrap-around (R111, R113). -/
def SpriteCovers (s : State) (px py n : Nat) (c : Fin 64) (r : Fin 32) : Prop :=
  ∃ row < n, ∃ col < 8, (s.mem.peek (s.i.toNat + row)).getLsbD (7 - col) = true ∧
    c.val = (px + col) % 64 ∧ r.val = (py + row) % 32

/-! ### Sessions -/

/-- The invariant of a session: memory is in canonical form and lists no byte of the font; `PC` is at most 0x10FE and
every return address held at most 0x1000 (R26), so that no reachable `PC` wraps. -/
def State.Inv (s : State) : Prop :=
  s.mem.wf ∧ (∀ c ∈ s.mem, 80 ≤ c.1) ∧ s.pc.toNat ≤ 0x10FE ∧
  ∀ k : Fin 16, k.val < s.sp.val → s.stack[k].toNat ≤ 0x1000

/-- The states of a session: what steps and host actions reach from reset (R250, R257, R274). -/
inductive Session : State → Prop where
  | reset : Session State.reset
  | step {s t : State} : Session s → step s = .next t → Session t
  | host {s t : State} (act : HostAction) : Session s → hostAct act s = .next t → Session t

/-- A step from `s` commits no contract violation (R233): the safe steps. -/
def Safe (s : State) : Prop := ∀ f, step s ≠ .fault f

end Sys2Proof.Machine
end

