-- ==== Sys2Proof/Certificates/Slice0/Obligations.lean ====
section
/-! DEFINITION. The statements for the provers, from the numbered rules of spec/. A statement's docstring names the rule it
formalises, or the decision of the spec or the log entry it rests on. Every statement about an instruction is about `exec`
at a state whose `PC` is the address of the instruction (assumption 9). A statement that cites an instruction's rule says its
encoding too. -/

open Sys2Proof Sys2Proof.Machine

/-! ### Encoding -/

/-- Words written out in spec/95_test_vectors.md decode to the instructions they stand for, and four illegal ones to none. That
0x01E0 is a call and 0x5121 is illegal is the spec's decision D1 (assumption 13). -/
def Obligations.SpecWordsDecode : Prop :=
  decode 0x00E0 = .ok .cls ∧ decode 0x01E0 = .ok (.sys 0x1E0) ∧ decode 0x00E1 = .ok (.sys 0x0E1) ∧
  decode 0x8126 = .ok (.shrVxVy 1 2) ∧ decode 0xDF21 = .ok (.drwVxVyN 15 2 1) ∧ decode 0xF533 = .ok (.ldBVx 5) ∧
  decode 0xE19E = .ok (.skpVx 1) ∧ decode 0xBFFE = .ok (.jpV0Nnn 0xFFE) ∧
  decode 0x5121 = .error (.illegalWord 0x5121) ∧ decode 0x800F = .error (.illegalWord 0x800F) ∧
  decode 0xE19F = .error (.illegalWord 0xE19F) ∧ decode 0xF000 = .error (.illegalWord 0xF000)

/-- Decoding the word, or the bytes, of a well-formed instruction gives it back with every operand (R84, R94, R98). -/
def Obligations.DecodeInvertsEncode : Prop :=
  ∀ i : Instr, i.WellFormed → decode (encode i) = .ok i ∧
    ∀ rest : List Byte, decodeBytes (encodeBytes i ++ rest) = .ok (i, rest)

/-- A word that decodes is the word of exactly that instruction, and the instruction is well formed: no two words mean the
same instruction, the unused `y` of `8XY6` and `8XYE` included. -/
def Obligations.EncodeInvertsDecode : Prop :=
  ∀ (w : Word) (i : Instr), decode w = .ok i → i.WellFormed ∧ encode i = w

/-- The decoder and the opcode map of R98 agree: a decoded word matches its instruction's row, and a word that matches a
row decodes to that row's instruction, row 3 losing to rows 1 and 2. -/
def Obligations.DecodeFollowsOpcodeMap : Prop :=
  ∀ w : Word,
    (∀ i, decode w = .ok i → ∃ row, opcodeRows[i.row]? = some row ∧ row.Matches w) ∧
    (∀ k row, opcodeRows[k]? = some row → row.Matches w → (k = 2 → w ≠ 0x00E0 ∧ w ≠ 0x00EE) →
      ∃ i, decode w = .ok i ∧ i.row = k)

/-- The illegal words are those of the five families R92 lists, and no others. -/
def Obligations.IllegalWordsAreTheListedOnes : Prop :=
  ∀ w : Word, (∃ e, decode w = .error e) ↔
    (w.toNat / 4096 = 0x5 ∧ w.toNat % 16 ≠ 0) ∨
    (w.toNat / 4096 = 0x8 ∧ w.toNat % 16 ∈ [0x8, 0x9, 0xA, 0xB, 0xC, 0xD, 0xF]) ∨
    (w.toNat / 4096 = 0x9 ∧ w.toNat % 16 ≠ 0) ∨
    (w.toNat / 4096 = 0xE ∧ w.toNat % 256 ∉ [0x9E, 0xA1]) ∨
    (w.toNat / 4096 = 0xF ∧ w.toNat % 256 ∉ [0x07, 0x0A, 0x15, 0x18, 0x1E, 0x29, 0x33, 0x55, 0x65])

/-- R91: every word of these ten groups decodes to the group's one instruction. -/
def Obligations.GroupsWithOneInstruction : Prop :=
  ∀ (x y : Reg) (n : Nibble) (nn : Byte) (nnn : Addr) (w : Word),
    (w.toNat = 0x1000 + nnn.toNat → decode w = .ok (.jp nnn)) ∧
    (w.toNat = 0x2000 + nnn.toNat → decode w = .ok (.call nnn)) ∧
    (w.toNat = 0x3000 + x.val * 256 + nn.toNat → decode w = .ok (.seVxNn x nn)) ∧
    (w.toNat = 0x4000 + x.val * 256 + nn.toNat → decode w = .ok (.sneVxNn x nn)) ∧
    (w.toNat = 0x6000 + x.val * 256 + nn.toNat → decode w = .ok (.ldVxNn x nn)) ∧
    (w.toNat = 0x7000 + x.val * 256 + nn.toNat → decode w = .ok (.addVxNn x nn)) ∧
    (w.toNat = 0xA000 + nnn.toNat → decode w = .ok (.ldINnn nnn)) ∧
    (w.toNat = 0xB000 + nnn.toNat → decode w = .ok (.jpV0Nnn nnn)) ∧
    (w.toNat = 0xC000 + x.val * 256 + nn.toNat → decode w = .ok (.rndVxNn x nn)) ∧
    (w.toNat = 0xD000 + x.val * 256 + y.val * 16 + n.toNat → decode w = .ok (.drwVxVyN x y n))

/-- R87: group 0x8 dispatches on `n`. -/
def Obligations.GroupEightDispatchesOnN : Prop :=
  ∀ (x y : Reg) (n : Nibble) (w : Word), w.toNat = 0x8000 + x.val * 256 + y.val * 16 + n.toNat →
    decode w =
      if n = 0x0 then .ok (.ldVxVy x y)
      else if n = 0x1 then .ok (.orVxVy x y)
      else if n = 0x2 then .ok (.andVxVy x y)
      else if n = 0x3 then .ok (.xorVxVy x y)
      else if n = 0x4 then .ok (.addVxVy x y)
      else if n = 0x5 then .ok (.subVxVy x y)
      else if n = 0x6 then .ok (.shrVxVy x y)
      else if n = 0x7 then .ok (.subnVxVy x y)
      else if n = 0xE then .ok (.shlVxVy x y)
      else .error (.illegalWord w)

/-- R88 and R89: groups 0xE and 0xF dispatch on `nn`. -/
def Obligations.GroupsEAndFDispatchOnNn : Prop :=
  ∀ (x : Reg) (nn : Byte) (w : Word),
    (w.toNat = 0xE000 + x.val * 256 + nn.toNat → decode w =
      if nn = 0x9E then .ok (.skpVx x)
      else if nn = 0xA1 then .ok (.sknpVx x)
      else .error (.illegalWord w)) ∧
    (w.toNat = 0xF000 + x.val * 256 + nn.toNat → decode w =
      if nn = 0x07 then .ok (.ldVxDt x)
      else if nn = 0x0A then .ok (.ldVxK x)
      else if nn = 0x15 then .ok (.ldDtVx x)
      else if nn = 0x18 then .ok (.ldStVx x)
      else if nn = 0x1E then .ok (.addIVx x)
      else if nn = 0x29 then .ok (.ldFVx x)
      else if nn = 0x33 then .ok (.ldBVx x)
      else if nn = 0x55 then .ok (.ldMemVx x)
      else if nn = 0x65 then .ok (.ldVxMem x)
      else .error (.illegalWord w))

/-! ### The step -/

/-- The step fetches the word at `PC`, most-significant byte first, from anywhere in memory, and runs the instruction it
decodes to; from 0xFFF on the fetch faults at the first address past memory. That `exec` is the whole of the step after the
decoding is the model's reading of the step cycle (assumption 9); the recorded `pc` is the spec's decision D32
(assumption 13). -/
def Obligations.StepRunsTheFetchedInstruction : Prop :=
  ∀ s : State,
    (∀ (w : Word) (i : Instr), s.pc.toNat < 0xFFF →
      w.toNat = (s.mem.peek s.pc.toNat).toNat * 256 + (s.mem.peek (s.pc.toNat + 1)).toNat →
      decode w = .ok i → step s = exec i s) ∧
    (0xFFF ≤ s.pc.toNat →
      step s = .fault (.addressOutOfRange (max s.pc.toNat 0x1000) .fetch .beyondSpace s.pc))

/-- A word in no row of the table: the step reports the decode failure with the word and the address it came from, leaves
`PC` two further, ticks the timers and changes nothing else. Rests on the spec's decisions D2 and D3. -/
def Obligations.DecodeFailureChangesOnlyPcAndTimers : Prop :=
  ∀ (s : State) (w : Word) (e : DecodeError), s.pc.toNat < 0xFFF →
    w.toNat = (s.mem.peek s.pc.toNat).toNat * 256 + (s.mem.peek (s.pc.toNat + 1)).toNat →
    decode w = .error e →
    ∃ t, step s = .next t ∧ t.report = .decodeFailure w s.pc ∧ t.pc = s.pc + 2 ∧
      Keeps [] [] s t ∧ Ticks s.dt s.st s t

/-- Every step ends with exactly one of the four outcomes: `Ok`, `Held`, `DecodeFailure` at the address fetched from, or a
fault; none is refused. Rests on the spec's decision D14 for `Held`, and on the model's own field for the reported outcome
(assumption 7). -/
def Obligations.EveryStepHasAnOutcome : Prop :=
  ∀ s : State,
    (∃ t, step s = .next t ∧
      (t.report = .ok ∨ (t = { s with report := .held }) ∨ ∃ w, t.report = .decodeFailure w s.pc)) ∨
    (∃ f, step s = .fault f)

/-- An instruction answers a next state exactly where it commits no contract violation, and otherwise faults with the cause
and the info listed. The next state is that of the completed instruction, but for `FX0A` with no key pressed, where it is the
held step of the spec's decision D14, which completes no instruction (assumptions 7 and 13). Rests on D5, D12, D14 and D32. -/
def Obligations.InstructionsCompleteOrFaultAsListed : Prop :=
  ∀ (i : Instr) (s : State),
    (MayComplete s i → ∃ t, exec i s = .next t) ∧
    (¬ MayComplete s i → ∃ f, exec i s = .fault f ∧ FaultOf s f i)

/-! ### Whole-machine rules -/

/-- No instruction writes a register or another part of the state that the spec's tables do not give it, and none writes the
keys. The tables are marked as derived in the spec. -/
def Obligations.EveryInstructionKeepsItsFrame : Prop :=
  ∀ (i : Instr) (s t : State), exec i s = .next t → Keeps (partsWritten i) (regsWritten i) s t

/-- Every instruction leaves `PC` as the table of R25 says; the table is marked as derived in the spec. -/
def Obligations.EveryInstructionLeavesPcAsTabled : Prop :=
  ∀ (i : Instr) (s t : State), exec i s = .next t → PcAfter s t i

/-- Every instruction whose step is not held reports `Ok`, ticks each timer once, after its own effect, and raises the sound
flag exactly when that tick takes `ST` from 1 to 0. Rests on the spec's decision D14 for the held step, and on the model's
own field for the reported outcome (assumption 7). -/
def Obligations.EveryCompletedInstructionTicksOnce : Prop :=
  ∀ (i : Instr) (s t : State), exec i s = .next t → t.report ≠ .held →
    t.report = .ok ∧ Ticks (dtAtTick s i) (stAtTick s i) s t

/-- No step lowers the redraw flag or the sound flag, and none writes the keys (R32, R33, R36). -/
def Obligations.StepsNeverLowerTheFlags : Prop :=
  ∀ s t : State, step s = .next t →
    (s.redrawFlag = true → t.redrawFlag = true) ∧ (s.soundFlag = true → t.soundFlag = true) ∧ t.keys = s.keys

/-- No step changes a byte below 0x200 (the write guard, R56, R63). -/
def Obligations.StepsNeverWriteTheSystemRegion : Prop :=
  ∀ s t : State, step s = .next t → ∀ a < 0x200, t.mem.peek a = s.mem.peek a

/-- Every step keeps the invariant: memory canonical and the font not overlaid, `PC` at most 0x10FE, every return address
held at most 0x1000 (the bounds of R26, which the spec marks as derived). -/
def Obligations.StepKeepsInvariant : Prop :=
  ∀ s t : State, s.Inv → step s = .next t → t.Inv

/-- The invariant holds at reset. -/
def Obligations.ResetMeetsInvariant : Prop := State.reset.Inv

/-- Every host action keeps the invariant, `initialize` with any open parameters included. -/
def Obligations.HostActionsKeepInvariant : Prop :=
  ∀ (act : HostAction) (s t : State), s.Inv → hostAct act s = .next t → t.Inv

/-- Throughout every session the font region reads as the font the block was initialized with (R65, R272). -/
def Obligations.FontNeverChangesInASession : Prop :=
  ∀ s : State, Session s → ∀ a < 80, s.mem.peek a = Config.font a

/-- `ST`, the two flags and the reported outcome are outputs: states that differ only in them step alike, to states that
differ only in them, or to the same fault (R31, R39, and the closing words of D18). -/
def Obligations.OutputsNeverInfluenceExecution : Prop :=
  ∀ (s : State) (st : Byte) (redraw sound : Bool) (rep : Report),
    (∀ t, step s = .next t → ∃ st' redraw' sound' rep',
      step { s with st := st, redrawFlag := redraw, soundFlag := sound, report := rep } =
        .next { t with st := st', redrawFlag := redraw', soundFlag := sound', report := rep' }) ∧
    (∀ f, step s = .fault f →
      step { s with st := st, redrawFlag := redraw, soundFlag := sound, report := rep } = .fault f)

/-- Slots of the stack at or above `SP` hold stale values that no step reads: states that differ only in them step to states
that differ only in such slots, or to the same fault (R29; the slot layout is the spec's decision D25). -/
def Obligations.StaleStackSlotsAreNeverRead : Prop :=
  ∀ (s : State) (stack : Vector Word 16), (∀ k : Fin 16, k.val < s.sp.val → stack[k] = s.stack[k]) →
    (∀ t, step s = .next t → ∃ stack' : Vector Word 16,
      step { s with stack := stack } = .next { t with stack := stack' } ∧
      ∀ k : Fin 16, k.val < t.sp.val → stack'[k] = t.stack[k]) ∧
    (∀ f, step s = .fault f → step { s with stack := stack } = .fault f)

/-! ### Display -/

/-- R110. -/
def Obligations.ClsClearsEveryCell : Prop :=
  encode .cls = 0x00E0 ∧ ∀ s : State, ∃ t, exec .cls s = .next t ∧
    (∀ c r, t.fb.cell c r = false) ∧ t.redrawFlag = true ∧
    t.pc = s.pc + 2 ∧ Keeps [.framebuffer, .redraw] [] s t ∧ Ticks s.dt s.st s t

/-- `DXYN` inside the address space flips exactly the cells its sprite covers, with wrap-around, sets `VF` to 1 when one of
them was set before and to 0 otherwise, and raises the redraw flag. Rests on the spec's decisions D11 and D27. -/
def Obligations.DrwFlipsCoveredCells : Prop :=
  ∀ (x y : Reg) (n : Nibble) (s : State), ReadsInside s n.toNat →
    ∃ t, exec (.drwVxVyN x y n) s = .next t ∧
      (∀ c r, SpriteCovers s (s.reg x).toNat (s.reg y).toNat n.toNat c r → t.fb.cell c r = !s.fb.cell c r) ∧
      (∀ c r, ¬ SpriteCovers s (s.reg x).toNat (s.reg y).toNat n.toNat c r → t.fb.cell c r = s.fb.cell c r) ∧
      ((∃ c r, SpriteCovers s (s.reg x).toNat (s.reg y).toNat n.toNat c r ∧ s.fb.cell c r = true) → t.reg 15 = 1) ∧
      ((∀ c r, SpriteCovers s (s.reg x).toNat (s.reg y).toNat n.toNat c r → s.fb.cell c r = false) → t.reg 15 = 0) ∧
      t.redrawFlag = true ∧ t.pc = s.pc + 2 ∧ Keeps [.framebuffer, .redraw] [15] s t ∧ Ticks s.dt s.st s t

/-- `DXYN` past the end of memory faults at the first address past it, whatever was drawn before. Rests on the spec's
decisions D5 and D32. -/
def Obligations.DrwFaultsPastMemory : Prop :=
  ∀ (x y : Reg) (n : Nibble) (s : State), n ≠ 0 → 4096 < s.i.toNat + n.toNat →
    exec (.drwVxVyN x y n) s = .fault (.addressOutOfRange (max s.i.toNat 4096) .read .beyondSpace s.pc)

/-- R115, which the spec marks as derived: the same sprite drawn twice at the same place restores every cell, and the second
draw reports a collision exactly when the first turned some cell from 0 to 1. -/
def Obligations.DrawingTwiceRestoresTheFramebuffer : Prop :=
  ∀ (x y : Reg) (n : Nibble) (s t u : State),
    exec (.drwVxVyN x y n) s = .next t →
    u.fb = t.fb → (∀ a, u.mem.peek a = s.mem.peek a) → u.i = s.i → u.reg x = s.reg x → u.reg y = s.reg y →
    ∃ w, exec (.drwVxVyN x y n) u = .next w ∧ w.fb = s.fb ∧
      (w.reg 15 = 1 ↔ ∃ c r, s.fb.cell c r = false ∧ t.fb.cell c r = true)

/-! ### Control flow -/

/-- R134. -/
def Obligations.JpSetsPc : Prop :=
  ∀ (nnn : Addr) (s : State), (encode (.jp nnn)).toNat = 0x1000 + nnn.toNat ∧ ∃ t, exec (.jp nnn) s = .next t ∧
    t.pc.toNat = nnn.toNat ∧ Keeps [] [] s t ∧ Ticks s.dt s.st s t

/-- `BNNN` jumps to `nnn + V0`, the sum not reduced to 12 bits (an inference the spec marks as its own). -/
def Obligations.JpV0AddsV0 : Prop :=
  ∀ (nnn : Addr) (s : State), ∃ t, exec (.jpV0Nnn nnn) s = .next t ∧
    t.pc.toNat = nnn.toNat + (s.reg 0).toNat ∧ Keeps [] [] s t ∧ Ticks s.dt s.st s t

/-- `2NNN`, and `0NNN` in the same way, push the post-fetch counter and jump; with 16 addresses held they fault. The slot
layout is the spec's decision D25, the fault's `pc` D32, and which words are `0NNN` D1. -/
def Obligations.CallsPushTheReturnAddress : Prop :=
  ∀ (nnn : Addr) (s : State), ∀ i ∈ [Instr.call nnn, Instr.sys nnn],
    (∀ top : Fin 16, s.sp.val = top.val → ∃ t, exec i s = .next t ∧
      t.sp.val = s.sp.val + 1 ∧ t.stack[top] = s.pc + 2 ∧ (∀ k : Fin 16, k ≠ top → t.stack[k] = s.stack[k]) ∧
      t.pc.toNat = nnn.toNat ∧ Keeps [.stack] [] s t ∧ Ticks s.dt s.st s t) ∧
    (s.sp.val = 16 → exec i s = .fault (.stackOverflow s.pc 16))

/-- `00EE` takes the top return address as it is; with none held it faults. The slot layout is the spec's decision D25,
the fault's `pc` D32. -/
def Obligations.RetPopsTheReturnAddress : Prop :=
  ∀ s : State,
    (∀ top : Fin 16, s.sp.val = top.val + 1 → ∃ t, exec .ret s = .next t ∧
      t.sp.val = top.val ∧ t.stack = s.stack ∧ t.pc = s.stack[top] ∧ Keeps [.stack] [] s t ∧ Ticks s.dt s.st s t) ∧
    (s.sp.val = 0 → exec .ret s = .fault (.stackUnderflow s.pc 0))

/-- A call and then a return with the stack as the call left it: `PC` is the post-fetch counter of the call, `SP` and every
return address held before are restored (last-in first-out, R131; worked example W5). -/
def Obligations.ReturnUndoesCall : Prop :=
  ∀ (nnn : Addr) (s t u : State), exec (.call nnn) s = .next t → u.sp = t.sp → u.stack = t.stack →
    ∃ w, exec .ret u = .next w ∧ w.pc = s.pc + 2 ∧ w.sp = s.sp ∧
      ∀ k : Fin 16, k.val < s.sp.val → w.stack[k] = s.stack[k]

/-- R136 and R137. -/
def Obligations.SkipsOnImmediate : Prop :=
  ∀ (x : Reg) (nn : Byte) (s : State),
    (encode (.seVxNn x nn)).toNat = 0x3000 + x.val * 256 + nn.toNat ∧
    (encode (.sneVxNn x nn)).toNat = 0x4000 + x.val * 256 + nn.toNat ∧
    (∃ t, exec (.seVxNn x nn) s = .next t ∧ SkipsWhen (s.reg x = nn) s t ∧ Keeps [] [] s t ∧ Ticks s.dt s.st s t) ∧
    (∃ t, exec (.sneVxNn x nn) s = .next t ∧ SkipsWhen (s.reg x ≠ nn) s t ∧ Keeps [] [] s t ∧ Ticks s.dt s.st s t)

/-- `5XY0` and `9XY0` skip on the equality of two registers. That only `n = 0` encodes them is the spec's decision D1. -/
def Obligations.SkipsOnRegisters : Prop :=
  ∀ (x y : Reg) (s : State),
    (∃ t, exec (.seVxVy x y) s = .next t ∧ SkipsWhen (s.reg x = s.reg y) s t ∧ Keeps [] [] s t ∧ Ticks s.dt s.st s t) ∧
    (∃ t, exec (.sneVxVy x y) s = .next t ∧ SkipsWhen (s.reg x ≠ s.reg y) s t ∧ Keeps [] [] s t ∧ Ticks s.dt s.st s t)

/-! ### Registers and arithmetic -/

/-- R160 and R162. -/
def Obligations.LoadsReplaceVx : Prop :=
  ∀ (x y : Reg) (nn : Byte) (s : State),
    (encode (.ldVxNn x nn)).toNat = 0x6000 + x.val * 256 + nn.toNat ∧
    (encode (.ldVxVy x y)).toNat = 0x8000 + x.val * 256 + y.val * 16 ∧
    (∃ t, exec (.ldVxNn x nn) s = .next t ∧ t.reg x = nn ∧ t.pc = s.pc + 2 ∧ Keeps [] [x] s t ∧ Ticks s.dt s.st s t) ∧
    (∃ t, exec (.ldVxVy x y) s = .next t ∧ t.reg x = s.reg y ∧ t.pc = s.pc + 2 ∧ Keeps [] [x] s t ∧ Ticks s.dt s.st s t)

/-- R161: the sum modulo 256, and no flag. -/
def Obligations.AddImmediateWraps : Prop :=
  ∀ (x : Reg) (nn : Byte) (s : State), (encode (.addVxNn x nn)).toNat = 0x7000 + x.val * 256 + nn.toNat ∧
    ∃ t, exec (.addVxNn x nn) s = .next t ∧
    (t.reg x).toNat = ((s.reg x).toNat + nn.toNat) % 256 ∧ t.pc = s.pc + 2 ∧ Keeps [] [x] s t ∧ Ticks s.dt s.st s t

/-- R163, R164, R165: bit by bit, the result in `Vx`, `VF` not reset. -/
def Obligations.LogicIsBitwise : Prop :=
  ∀ (x y : Reg) (s : State),
    (encode (.orVxVy x y)).toNat = 0x8001 + x.val * 256 + y.val * 16 ∧
    (encode (.andVxVy x y)).toNat = 0x8002 + x.val * 256 + y.val * 16 ∧
    (encode (.xorVxVy x y)).toNat = 0x8003 + x.val * 256 + y.val * 16 ∧
    (∃ t, exec (.orVxVy x y) s = .next t ∧
      (∀ k < 8, (t.reg x).getLsbD k = ((s.reg x).getLsbD k || (s.reg y).getLsbD k)) ∧
      t.pc = s.pc + 2 ∧ Keeps [] [x] s t ∧ Ticks s.dt s.st s t) ∧
    (∃ t, exec (.andVxVy x y) s = .next t ∧
      (∀ k < 8, (t.reg x).getLsbD k = ((s.reg x).getLsbD k && (s.reg y).getLsbD k)) ∧
      t.pc = s.pc + 2 ∧ Keeps [] [x] s t ∧ Ticks s.dt s.st s t) ∧
    (∃ t, exec (.xorVxVy x y) s = .next t ∧
      (∀ k < 8, (t.reg x).getLsbD k = Bool.xor ((s.reg x).getLsbD k) ((s.reg y).getLsbD k)) ∧
      t.pc = s.pc + 2 ∧ Keeps [] [x] s t ∧ Ticks s.dt s.st s t)

/-- `8XY4`: the sum modulo 256 and its carry, both of the operands before the instruction; `VF` is written last, so it is the
carry when `x = 15` (the spec's decision D10). -/
def Obligations.AddSetsCarry : Prop :=
  ∀ (x y : Reg) (s : State), ∃ t, exec (.addVxVy x y) s = .next t ∧
    (x ≠ 15 → (t.reg x).toNat = ((s.reg x).toNat + (s.reg y).toNat) % 256) ∧
    t.reg 15 = (if 255 < (s.reg x).toNat + (s.reg y).toNat then 1 else 0) ∧
    t.pc = s.pc + 2 ∧ Keeps [] [x, 15] s t ∧ Ticks s.dt s.st s t

/-- `8XY5` and `8XY7`: the difference modulo 256 and its not-borrow flag, both of the operands before the instruction; `VF` is
written last, so it is the flag when `x = 15` (the spec's decision D10). -/
def Obligations.SubtractionsSetNotBorrow : Prop :=
  ∀ (x y : Reg) (s : State),
    (∃ t, exec (.subVxVy x y) s = .next t ∧
      (x ≠ 15 → ((t.reg x).toNat : Int) = ((s.reg x).toNat - (s.reg y).toNat : Int) % 256) ∧
      t.reg 15 = (if (s.reg y).toNat > (s.reg x).toNat then 0 else 1) ∧
      t.pc = s.pc + 2 ∧ Keeps [] [x, 15] s t ∧ Ticks s.dt s.st s t) ∧
    (∃ t, exec (.subnVxVy x y) s = .next t ∧
      (x ≠ 15 → ((t.reg x).toNat : Int) = ((s.reg y).toNat - (s.reg x).toNat : Int) % 256) ∧
      t.reg 15 = (if (s.reg x).toNat > (s.reg y).toNat then 0 else 1) ∧
      t.pc = s.pc + 2 ∧ Keeps [] [x, 15] s t ∧ Ticks s.dt s.st s t)

/-- `8XY6` and `8XYE` shift `Vx` by one and leave the bit shifted out in `VF`, whatever `y` is; with `x = 15` the shift reads
the flag already written, so `VF` ends 0 for `8XY6`, and 2 or 0 for `8XYE` (the spec's decision D9). -/
def Obligations.ShiftsSetShiftedOutBit : Prop :=
  ∀ (x y : Reg) (s : State),
    (∃ t, exec (.shrVxVy x y) s = .next t ∧
      (x ≠ 15 → (t.reg x).toNat = (s.reg x).toNat / 2 ∧ (t.reg 15).toNat = (s.reg x).toNat % 2) ∧
      (x = 15 → t.reg 15 = 0) ∧
      t.pc = s.pc + 2 ∧ Keeps [] [x, 15] s t ∧ Ticks s.dt s.st s t) ∧
    (∃ t, exec (.shlVxVy x y) s = .next t ∧
      (x ≠ 15 → (t.reg x).toNat = (s.reg x).toNat * 2 % 256 ∧ (t.reg 15).toNat = (s.reg x).toNat / 128) ∧
      (x = 15 → t.reg 15 = (if 128 ≤ (s.reg 15).toNat then 2 else 0)) ∧
      t.pc = s.pc + 2 ∧ Keeps [] [x, 15] s t ∧ Ticks s.dt s.st s t)

/-- `CXNN` loads a drawn byte masked by `nn`, and the next draw is another. The drawn byte is a free value (the spec's D15;
assumptions 3 and 5): this holds whatever it is. -/
def Obligations.RndMasksADrawnByte : Prop :=
  ∀ (x : Reg) (nn : Byte) (s : State), ∃ t, exec (.rndVxNn x nn) s = .next t ∧
    (∀ k < 8, (t.reg x).getLsbD k = ((Config.drawByte s.draws).getLsbD k && nn.getLsbD k)) ∧
    t.draws = s.draws + 1 ∧ t.pc = s.pc + 2 ∧ Keeps [.draws] [x] s t ∧ Ticks s.dt s.st s t

/-! ### The index register and memory -/

/-- R190. -/
def Obligations.LdILoadsTheAddress : Prop :=
  ∀ (nnn : Addr) (s : State), (encode (.ldINnn nnn)).toNat = 0xA000 + nnn.toNat ∧ ∃ t, exec (.ldINnn nnn) s = .next t ∧
    t.i.toNat = nnn.toNat ∧ t.pc = s.pc + 2 ∧ Keeps [.index] [] s t ∧ Ticks s.dt s.st s t

/-- `FX1E` adds `Vx` to `I` modulo 2^16 and writes no flag (the spec's decision D7). -/
def Obligations.AddIWrapsAtSixteenBits : Prop :=
  ∀ (x : Reg) (s : State), ∃ t, exec (.addIVx x) s = .next t ∧
    t.i.toNat = (s.i.toNat + (s.reg x).toNat) % 65536 ∧ t.pc = s.pc + 2 ∧ Keeps [.index] [] s t ∧ Ticks s.dt s.st s t

/-- `FX29` sets `I` to five times `Vx`, not reduced to a digit (the spec's decision D28). -/
def Obligations.LdFPointsAtTheGlyph : Prop :=
  ∀ (x : Reg) (s : State), ∃ t, exec (.ldFVx x) s = .next t ∧
    t.i.toNat = (s.reg x).toNat * 5 ∧ t.pc = s.pc + 2 ∧ Keeps [.index] [] s t ∧ Ticks s.dt s.st s t

/-- The three decimal digits of `Vx` go to `I`, `I + 1`, `I + 2`, and nothing else is stored; outside the program/data
region the instruction faults at the first bad address. The `pc` its faults record is the spec's decision D32
(assumption 13). -/
def Obligations.LdBStoresDecimalDigits : Prop :=
  ∀ (x : Reg) (s : State),
    (encode (.ldBVx x)).toNat = 0xF033 + x.val * 256 ∧
    (WritesInside s 3 → ∃ t, exec (.ldBVx x) s = .next t ∧
      (t.mem.peek s.i.toNat).toNat = (s.reg x).toNat / 100 ∧
      (t.mem.peek (s.i.toNat + 1)).toNat = (s.reg x).toNat / 10 % 10 ∧
      (t.mem.peek (s.i.toNat + 2)).toNat = (s.reg x).toNat % 10 ∧
      (∀ a, a < s.i.toNat ∨ s.i.toNat + 3 ≤ a → t.mem.peek a = s.mem.peek a) ∧
      t.pc = s.pc + 2 ∧ Keeps [.memory] [] s t ∧ Ticks s.dt s.st s t) ∧
    (s.i.toNat < 0x200 →
      exec (.ldBVx x) s = .fault (.addressOutOfRange s.i.toNat .write .belowProgramBoundary s.pc)) ∧
    (4096 < s.i.toNat + 3 →
      exec (.ldBVx x) s = .fault (.addressOutOfRange (max s.i.toNat 4096) .write .beyondSpace s.pc))

/-- `V0` to `Vx` go to `I` to `I + x`, nothing else is stored, and `I` ends at `I + x + 1`; outside the program/data
region the instruction faults at the first bad address. The `pc` its faults record is the spec's decision D32
(assumption 13). -/
def Obligations.LdMemStoresRegisters : Prop :=
  ∀ (x : Reg) (s : State),
    (encode (.ldMemVx x)).toNat = 0xF055 + x.val * 256 ∧
    (WritesInside s (x.val + 1) → ∃ t, exec (.ldMemVx x) s = .next t ∧
      (∀ k : Reg, k ≤ x → t.mem.peek (s.i.toNat + k.val) = s.reg k) ∧
      (∀ a, a < s.i.toNat ∨ s.i.toNat + x.val + 1 ≤ a → t.mem.peek a = s.mem.peek a) ∧
      t.i.toNat = (s.i.toNat + x.val + 1) % 65536 ∧
      t.pc = s.pc + 2 ∧ Keeps [.memory, .index] [] s t ∧ Ticks s.dt s.st s t) ∧
    (s.i.toNat < 0x200 →
      exec (.ldMemVx x) s = .fault (.addressOutOfRange s.i.toNat .write .belowProgramBoundary s.pc)) ∧
    (4096 < s.i.toNat + x.val + 1 →
      exec (.ldMemVx x) s = .fault (.addressOutOfRange (max s.i.toNat 4096) .write .beyondSpace s.pc))

/-- `V0` to `Vx` are loaded from `I` to `I + x`, the system region included, and `I` ends at `I + x + 1`; past the end
of memory the instruction faults at the first bad address. The `pc` its fault records is the spec's decision D32
(assumption 13). -/
def Obligations.LdVxMemLoadsRegisters : Prop :=
  ∀ (x : Reg) (s : State),
    (encode (.ldVxMem x)).toNat = 0xF065 + x.val * 256 ∧
    (s.i.toNat + x.val + 1 ≤ 4096 → ∃ t, exec (.ldVxMem x) s = .next t ∧
      (∀ k : Reg, k ≤ x → t.reg k = s.mem.peek (s.i.toNat + k.val)) ∧
      (∀ k : Reg, x < k → t.reg k = s.reg k) ∧
      t.i.toNat = (s.i.toNat + x.val + 1) % 65536 ∧
      t.pc = s.pc + 2 ∧ Keeps [.index] (regsWritten (.ldVxMem x)) s t ∧ Ticks s.dt s.st s t) ∧
    (4096 < s.i.toNat + x.val + 1 →
      exec (.ldVxMem x) s = .fault (.addressOutOfRange (max s.i.toNat 4096) .read .beyondSpace s.pc))

/-- R196, which the spec marks as derived: what `FX55` stored, `FX65` with the same `x` and `I` loads back, whatever the
registers hold in between; `I` ends at the original `I + x + 1`. -/
def Obligations.StoreThenLoadRestoresRegisters : Prop :=
  ∀ (x : Reg) (s t u : State), exec (.ldMemVx x) s = .next t →
    (∀ a, u.mem.peek a = t.mem.peek a) → u.i = s.i →
    ∃ w, exec (.ldVxMem x) u = .next w ∧ (∀ k : Reg, k ≤ x → w.reg k = s.reg k) ∧
      w.i.toNat = s.i.toNat + x.val + 1

/-- R69, which the spec marks as derived: a word stored by `FX55` is the word the next fetch from its address reads. -/
def Obligations.FetchSeesStoredBytes : Prop :=
  ∀ (x k : Reg) (s t u : State), exec (.ldMemVx x) s = .next t → k < x →
    (∀ a, u.mem.peek a = t.mem.peek a) → u.pc.toNat = s.i.toNat + k.val →
    ∃ w, fetch u = .ok w ∧ w.toNat = (s.reg k).toNat * 256 + (s.reg (k + 1)).toNat

/-! ### Timers and keys -/

/-- R213: the delay timer as it was before this step's tick. -/
def Obligations.LdVxDtReadsTheDelayTimer : Prop :=
  ∀ (x : Reg) (s : State), (encode (.ldVxDt x)).toNat = 0xF007 + x.val * 256 ∧ ∃ t, exec (.ldVxDt x) s = .next t ∧
    t.reg x = s.dt ∧ t.pc = s.pc + 2 ∧ Keeps [] [x] s t ∧ Ticks s.dt s.st s t

/-- R215 and R216: the timer written is ticked in the same step, so that `FX18` with 1 raises the sound flag and with 0 does
not. -/
def Obligations.TimerWritesAreTickedAtOnce : Prop :=
  ∀ (x : Reg) (s : State),
    (encode (.ldDtVx x)).toNat = 0xF015 + x.val * 256 ∧ (encode (.ldStVx x)).toNat = 0xF018 + x.val * 256 ∧
    (∃ t, exec (.ldDtVx x) s = .next t ∧ Ticks (s.reg x) s.st s t ∧
      t.pc = s.pc + 2 ∧ Keeps [] [] s t) ∧
    (∃ t, exec (.ldStVx x) s = .next t ∧ Ticks s.dt (s.reg x) s t ∧
      t.pc = s.pc + 2 ∧ Keeps [] [] s t)

/-- R281, which the spec marks as derived: an `FX07` right after an `FX15` reads one less than what was written. -/
def Obligations.DelayTimerReadsOneLess : Prop :=
  ∀ (x y : Reg) (s t u : State), exec (.ldDtVx x) s = .next t → u.dt = t.dt →
    ∃ w, exec (.ldVxDt y) u = .next w ∧ (w.reg y).toNat = (s.reg x).toNat - 1

/-- `EX9E` and `EXA1` skip on key `Vx` being pressed or not; with `Vx` above 15 they fault (the spec's decision D12;
the recorded `pc` is D32). -/
def Obligations.KeySkipsTestTheKey : Prop :=
  ∀ (x : Reg) (s : State),
    (∀ k : Fin 16, (s.reg x).toNat = k.val →
      (∃ t, exec (.skpVx x) s = .next t ∧ SkipsWhen (s.keys[k] = true) s t ∧ Keeps [] [] s t ∧ Ticks s.dt s.st s t) ∧
      (∃ t, exec (.sknpVx x) s = .next t ∧ SkipsWhen (s.keys[k] = false) s t ∧ Keeps [] [] s t ∧ Ticks s.dt s.st s t)) ∧
    (15 < (s.reg x).toNat →
      exec (.skpVx x) s = .fault (.keyIndexOutOfRange s.pc (s.reg x)) ∧
      exec (.sknpVx x) s = .fault (.keyIndexOutOfRange s.pc (s.reg x)))

/-- `FX0A` with some key pressed loads the index of a pressed key, a free choice among them; with none pressed the step is
held and nothing is written but the reported outcome. Rests on the spec's decisions D13 and D14 (assumptions 4 and 7). -/
def Obligations.LdKWaitsForAKey : Prop :=
  ∀ (x : Reg) (s : State),
    ((∃ k : Fin 16, s.keys[k] = true) → ∃ t, exec (.ldVxK x) s = .next t ∧
      (∃ k : Fin 16, s.keys[k] = true ∧ (t.reg x).toNat = k.val) ∧
      t.pc = s.pc + 2 ∧ Keeps [.draws] [x] s t ∧ Ticks s.dt s.st s t) ∧
    ((∀ k : Fin 16, s.keys[k] = false) → exec (.ldVxK x) s = .next { s with report := .held })

/-- A held step is lifted by the host setting a key: the same `FX0A` then loads that key, and the timers tick once
(test vectors T7 and T8; the spec's decision D14). -/
def Obligations.SettingAKeyLiftsTheHold : Prop :=
  ∀ (x : Reg) (k : Fin 16) (s t : State), exec (.ldVxK x) s = .next t → t.report = .held →
    ∃ u w, hostAct (.setKey k true) t = .next u ∧ exec (.ldVxK x) u = .next w ∧
      (w.reg x).toNat = k.val ∧ w.pc = s.pc + 2 ∧ Keeps [.draws] [x] u w ∧ Ticks s.dt s.st s w

/-! ### Reset and the host -/

/-- `initialize` gives the state of R270 for every value of the open parameters, and leaves the keys to the host. Rests on
the spec's decisions D16 to D19. -/
def Obligations.InitializeGivesTheResetState : Prop :=
  ∀ (initMem : Nat → Byte) (initFb : Fin 64 → Fin 32 → Bool) (s : State),
    ∃ t, hostAct (.start initMem initFb) s = .next t ∧
      (∀ r, t.reg r = 0) ∧ t.i = 0 ∧ t.pc = 0x200 ∧ t.sp.val = 0 ∧ (∀ k : Fin 16, t.stack[k] = 0) ∧
      t.dt = 0 ∧ t.st = 0 ∧ (∀ a < 80, t.mem.peek a = Config.font a) ∧
      (∀ a, 80 ≤ a → a < 4096 → t.mem.peek a = initMem a) ∧ (∀ c r, t.fb.cell c r = initFb c r) ∧
      t.redrawFlag = false ∧ t.soundFlag = false ∧ t.keys = s.keys

/-- `State.reset` is what `initialize` gives when `INIT_MEM` is all 0x00, the model's choice (assumption 6), and `INIT_FB` is
the free framebuffer (assumption 2). -/
def Obligations.ResetIsAnInitialization : Prop :=
  hostAct (.start (fun _ => 0) Config.initFb) State.reset = .next State.reset

/-- R21, R24, R27 to R31: the values the spec gives for the registers at reset. -/
def Obligations.ResetRegisters : Prop :=
  (∀ r, State.reset.reg r = 0) ∧ State.reset.pc = 0x200 ∧ State.reset.i = 0 ∧ State.reset.sp.val = 0 ∧
  (∀ k : Fin 16, State.reset.stack[k] = 0) ∧ State.reset.dt = 0 ∧ State.reset.st = 0

/-- `load` within the host's duty copies the bytes, changes nothing else and passes the write guard by; outside it the model
refuses. Rests on the spec's decision D21. -/
def Obligations.LoadCopiesBytes : Prop :=
  ∀ (bytes : List Byte) (a : Nat) (s : State),
    (0x200 ≤ a ∧ a + bytes.length ≤ 4096 → ∃ t, hostAct (.load bytes a) s = .next t ∧
      (∀ j (h : j < bytes.length), t.mem.peek (a + j) = bytes[j]) ∧
      (∀ b, b < a ∨ a + bytes.length ≤ b → t.mem.peek b = s.mem.peek b) ∧ t = { s with mem := t.mem }) ∧
    (¬ (0x200 ≤ a ∧ a + bytes.length ≤ 4096) →
      hostAct (.load bytes a) s = .refused (.loadOutsideDuty a bytes.length))

/-- The host sets a key to any value and clears either flag, and each changes nothing else. Rests on the spec's decision D22. -/
def Obligations.HostSetsKeysAndClearsFlags : Prop :=
  ∀ (k : Fin 16) (pressed : Bool) (s : State),
    (∃ t, hostAct (.setKey k pressed) s = .next t ∧ t.keys[k] = pressed ∧
      (∀ j : Fin 16, j ≠ k → t.keys[j] = s.keys[j]) ∧ t = { s with keys := t.keys }) ∧
    hostAct .clearRedraw s = .next { s with redrawFlag := false } ∧
    hostAct .clearSound s = .next { s with soundFlag := false }
end

