-- ==== Sys2Proof/Laws/State.lean ====
section
/-! SUPPORT. One lemma per field per update of State, true by unfolding the update once, so that no proof unfolds a record
update. -/

namespace Sys2Proof.Machine

/-! ### Registers -/

@[simp] theorem setVF_eq (s : State) (b : Byte) : s.setVF b = s.setReg 15 b := rfl

@[simp] theorem reg_setReg_same (s : State) (x : Reg) (b : Byte) : (s.setReg x b).reg x = b := by
  simp [State.reg, State.setReg]

theorem reg_setReg_of_ne (s : State) {x y : Reg} (b : Byte) (h : y ≠ x) : (s.setReg x b).reg y = s.reg y := by
  have : x.val ≠ y.val := fun e => h (Fin.ext e.symm)
  simp [State.reg, State.setReg, this]

theorem reg_setReg (s : State) (x y : Reg) (b : Byte) : (s.setReg x b).reg y = if y = x then b else s.reg y := by
  split
  · next h => rw [h, reg_setReg_same]
  · next h => exact reg_setReg_of_ne s b h

/-! ### setReg -/

@[simp] theorem setReg_v (s : State) (x : Reg) (b : Byte) : (s.setReg x b).v = s.v.set x b := rfl
@[simp] theorem setReg_i (s : State) (x : Reg) (b : Byte) : (s.setReg x b).i = s.i := rfl
@[simp] theorem setReg_pc (s : State) (x : Reg) (b : Byte) : (s.setReg x b).pc = s.pc := rfl
@[simp] theorem setReg_sp (s : State) (x : Reg) (b : Byte) : (s.setReg x b).sp = s.sp := rfl
@[simp] theorem setReg_stack (s : State) (x : Reg) (b : Byte) : (s.setReg x b).stack = s.stack := rfl
@[simp] theorem setReg_dt (s : State) (x : Reg) (b : Byte) : (s.setReg x b).dt = s.dt := rfl
@[simp] theorem setReg_st (s : State) (x : Reg) (b : Byte) : (s.setReg x b).st = s.st := rfl
@[simp] theorem setReg_mem (s : State) (x : Reg) (b : Byte) : (s.setReg x b).mem = s.mem := rfl
@[simp] theorem setReg_fb (s : State) (x : Reg) (b : Byte) : (s.setReg x b).fb = s.fb := rfl
@[simp] theorem setReg_redrawFlag (s : State) (x : Reg) (b : Byte) : (s.setReg x b).redrawFlag = s.redrawFlag := rfl
@[simp] theorem setReg_soundFlag (s : State) (x : Reg) (b : Byte) : (s.setReg x b).soundFlag = s.soundFlag := rfl
@[simp] theorem setReg_keys (s : State) (x : Reg) (b : Byte) : (s.setReg x b).keys = s.keys := rfl
@[simp] theorem setReg_draws (s : State) (x : Reg) (b : Byte) : (s.setReg x b).draws = s.draws := rfl
@[simp] theorem setReg_report (s : State) (x : Reg) (b : Byte) : (s.setReg x b).report = s.report := rfl

/-! ### setI -/

@[simp] theorem setI_reg (s : State) (w : Word) (x : Reg) : (s.setI w).reg x = s.reg x := rfl
@[simp] theorem setI_v (s : State) (w : Word) : (s.setI w).v = s.v := rfl
@[simp] theorem setI_i (s : State) (w : Word) : (s.setI w).i = w := rfl
@[simp] theorem setI_pc (s : State) (w : Word) : (s.setI w).pc = s.pc := rfl
@[simp] theorem setI_sp (s : State) (w : Word) : (s.setI w).sp = s.sp := rfl
@[simp] theorem setI_stack (s : State) (w : Word) : (s.setI w).stack = s.stack := rfl
@[simp] theorem setI_dt (s : State) (w : Word) : (s.setI w).dt = s.dt := rfl
@[simp] theorem setI_st (s : State) (w : Word) : (s.setI w).st = s.st := rfl
@[simp] theorem setI_mem (s : State) (w : Word) : (s.setI w).mem = s.mem := rfl
@[simp] theorem setI_fb (s : State) (w : Word) : (s.setI w).fb = s.fb := rfl
@[simp] theorem setI_redrawFlag (s : State) (w : Word) : (s.setI w).redrawFlag = s.redrawFlag := rfl
@[simp] theorem setI_soundFlag (s : State) (w : Word) : (s.setI w).soundFlag = s.soundFlag := rfl
@[simp] theorem setI_keys (s : State) (w : Word) : (s.setI w).keys = s.keys := rfl
@[simp] theorem setI_draws (s : State) (w : Word) : (s.setI w).draws = s.draws := rfl
@[simp] theorem setI_report (s : State) (w : Word) : (s.setI w).report = s.report := rfl

/-! ### setPc -/

@[simp] theorem setPc_reg (s : State) (w : Word) (x : Reg) : (s.setPc w).reg x = s.reg x := rfl
@[simp] theorem setPc_v (s : State) (w : Word) : (s.setPc w).v = s.v := rfl
@[simp] theorem setPc_i (s : State) (w : Word) : (s.setPc w).i = s.i := rfl
@[simp] theorem setPc_pc (s : State) (w : Word) : (s.setPc w).pc = w := rfl
@[simp] theorem setPc_sp (s : State) (w : Word) : (s.setPc w).sp = s.sp := rfl
@[simp] theorem setPc_stack (s : State) (w : Word) : (s.setPc w).stack = s.stack := rfl
@[simp] theorem setPc_dt (s : State) (w : Word) : (s.setPc w).dt = s.dt := rfl
@[simp] theorem setPc_st (s : State) (w : Word) : (s.setPc w).st = s.st := rfl
@[simp] theorem setPc_mem (s : State) (w : Word) : (s.setPc w).mem = s.mem := rfl
@[simp] theorem setPc_fb (s : State) (w : Word) : (s.setPc w).fb = s.fb := rfl
@[simp] theorem setPc_redrawFlag (s : State) (w : Word) : (s.setPc w).redrawFlag = s.redrawFlag := rfl
@[simp] theorem setPc_soundFlag (s : State) (w : Word) : (s.setPc w).soundFlag = s.soundFlag := rfl
@[simp] theorem setPc_keys (s : State) (w : Word) : (s.setPc w).keys = s.keys := rfl
@[simp] theorem setPc_draws (s : State) (w : Word) : (s.setPc w).draws = s.draws := rfl
@[simp] theorem setPc_report (s : State) (w : Word) : (s.setPc w).report = s.report := rfl

/-! ### setDt -/

@[simp] theorem setDt_reg (s : State) (b : Byte) (x : Reg) : (s.setDt b).reg x = s.reg x := rfl
@[simp] theorem setDt_v (s : State) (b : Byte) : (s.setDt b).v = s.v := rfl
@[simp] theorem setDt_i (s : State) (b : Byte) : (s.setDt b).i = s.i := rfl
@[simp] theorem setDt_pc (s : State) (b : Byte) : (s.setDt b).pc = s.pc := rfl
@[simp] theorem setDt_sp (s : State) (b : Byte) : (s.setDt b).sp = s.sp := rfl
@[simp] theorem setDt_stack (s : State) (b : Byte) : (s.setDt b).stack = s.stack := rfl
@[simp] theorem setDt_dt (s : State) (b : Byte) : (s.setDt b).dt = b := rfl
@[simp] theorem setDt_st (s : State) (b : Byte) : (s.setDt b).st = s.st := rfl
@[simp] theorem setDt_mem (s : State) (b : Byte) : (s.setDt b).mem = s.mem := rfl
@[simp] theorem setDt_fb (s : State) (b : Byte) : (s.setDt b).fb = s.fb := rfl
@[simp] theorem setDt_redrawFlag (s : State) (b : Byte) : (s.setDt b).redrawFlag = s.redrawFlag := rfl
@[simp] theorem setDt_soundFlag (s : State) (b : Byte) : (s.setDt b).soundFlag = s.soundFlag := rfl
@[simp] theorem setDt_keys (s : State) (b : Byte) : (s.setDt b).keys = s.keys := rfl
@[simp] theorem setDt_draws (s : State) (b : Byte) : (s.setDt b).draws = s.draws := rfl
@[simp] theorem setDt_report (s : State) (b : Byte) : (s.setDt b).report = s.report := rfl

/-! ### setSt -/

@[simp] theorem setSt_reg (s : State) (b : Byte) (x : Reg) : (s.setSt b).reg x = s.reg x := rfl
@[simp] theorem setSt_v (s : State) (b : Byte) : (s.setSt b).v = s.v := rfl
@[simp] theorem setSt_i (s : State) (b : Byte) : (s.setSt b).i = s.i := rfl
@[simp] theorem setSt_pc (s : State) (b : Byte) : (s.setSt b).pc = s.pc := rfl
@[simp] theorem setSt_sp (s : State) (b : Byte) : (s.setSt b).sp = s.sp := rfl
@[simp] theorem setSt_stack (s : State) (b : Byte) : (s.setSt b).stack = s.stack := rfl
@[simp] theorem setSt_dt (s : State) (b : Byte) : (s.setSt b).dt = s.dt := rfl
@[simp] theorem setSt_st (s : State) (b : Byte) : (s.setSt b).st = b := rfl
@[simp] theorem setSt_mem (s : State) (b : Byte) : (s.setSt b).mem = s.mem := rfl
@[simp] theorem setSt_fb (s : State) (b : Byte) : (s.setSt b).fb = s.fb := rfl
@[simp] theorem setSt_redrawFlag (s : State) (b : Byte) : (s.setSt b).redrawFlag = s.redrawFlag := rfl
@[simp] theorem setSt_soundFlag (s : State) (b : Byte) : (s.setSt b).soundFlag = s.soundFlag := rfl
@[simp] theorem setSt_keys (s : State) (b : Byte) : (s.setSt b).keys = s.keys := rfl
@[simp] theorem setSt_draws (s : State) (b : Byte) : (s.setSt b).draws = s.draws := rfl
@[simp] theorem setSt_report (s : State) (b : Byte) : (s.setSt b).report = s.report := rfl

/-! ### raiseRedraw -/

@[simp] theorem raiseRedraw_reg (s : State) (x : Reg) : (s.raiseRedraw).reg x = s.reg x := rfl
@[simp] theorem raiseRedraw_v (s : State) : (s.raiseRedraw).v = s.v := rfl
@[simp] theorem raiseRedraw_i (s : State) : (s.raiseRedraw).i = s.i := rfl
@[simp] theorem raiseRedraw_pc (s : State) : (s.raiseRedraw).pc = s.pc := rfl
@[simp] theorem raiseRedraw_sp (s : State) : (s.raiseRedraw).sp = s.sp := rfl
@[simp] theorem raiseRedraw_stack (s : State) : (s.raiseRedraw).stack = s.stack := rfl
@[simp] theorem raiseRedraw_dt (s : State) : (s.raiseRedraw).dt = s.dt := rfl
@[simp] theorem raiseRedraw_st (s : State) : (s.raiseRedraw).st = s.st := rfl
@[simp] theorem raiseRedraw_mem (s : State) : (s.raiseRedraw).mem = s.mem := rfl
@[simp] theorem raiseRedraw_fb (s : State) : (s.raiseRedraw).fb = s.fb := rfl
@[simp] theorem raiseRedraw_redrawFlag (s : State) : (s.raiseRedraw).redrawFlag = true := rfl
@[simp] theorem raiseRedraw_soundFlag (s : State) : (s.raiseRedraw).soundFlag = s.soundFlag := rfl
@[simp] theorem raiseRedraw_keys (s : State) : (s.raiseRedraw).keys = s.keys := rfl
@[simp] theorem raiseRedraw_draws (s : State) : (s.raiseRedraw).draws = s.draws := rfl
@[simp] theorem raiseRedraw_report (s : State) : (s.raiseRedraw).report = s.report := rfl

/-! ### setMem -/

@[simp] theorem setMem_reg (s : State) (m : Memory) (x : Reg) : (s.setMem m).reg x = s.reg x := rfl
@[simp] theorem setMem_v (s : State) (m : Memory) : (s.setMem m).v = s.v := rfl
@[simp] theorem setMem_i (s : State) (m : Memory) : (s.setMem m).i = s.i := rfl
@[simp] theorem setMem_pc (s : State) (m : Memory) : (s.setMem m).pc = s.pc := rfl
@[simp] theorem setMem_sp (s : State) (m : Memory) : (s.setMem m).sp = s.sp := rfl
@[simp] theorem setMem_stack (s : State) (m : Memory) : (s.setMem m).stack = s.stack := rfl
@[simp] theorem setMem_dt (s : State) (m : Memory) : (s.setMem m).dt = s.dt := rfl
@[simp] theorem setMem_st (s : State) (m : Memory) : (s.setMem m).st = s.st := rfl
@[simp] theorem setMem_mem (s : State) (m : Memory) : (s.setMem m).mem = m := rfl
@[simp] theorem setMem_fb (s : State) (m : Memory) : (s.setMem m).fb = s.fb := rfl
@[simp] theorem setMem_redrawFlag (s : State) (m : Memory) : (s.setMem m).redrawFlag = s.redrawFlag := rfl
@[simp] theorem setMem_soundFlag (s : State) (m : Memory) : (s.setMem m).soundFlag = s.soundFlag := rfl
@[simp] theorem setMem_keys (s : State) (m : Memory) : (s.setMem m).keys = s.keys := rfl
@[simp] theorem setMem_draws (s : State) (m : Memory) : (s.setMem m).draws = s.draws := rfl
@[simp] theorem setMem_report (s : State) (m : Memory) : (s.setMem m).report = s.report := rfl

/-! ### setFb -/

@[simp] theorem setFb_reg (s : State) (f : Framebuffer) (x : Reg) : (s.setFb f).reg x = s.reg x := rfl
@[simp] theorem setFb_v (s : State) (f : Framebuffer) : (s.setFb f).v = s.v := rfl
@[simp] theorem setFb_i (s : State) (f : Framebuffer) : (s.setFb f).i = s.i := rfl
@[simp] theorem setFb_pc (s : State) (f : Framebuffer) : (s.setFb f).pc = s.pc := rfl
@[simp] theorem setFb_sp (s : State) (f : Framebuffer) : (s.setFb f).sp = s.sp := rfl
@[simp] theorem setFb_stack (s : State) (f : Framebuffer) : (s.setFb f).stack = s.stack := rfl
@[simp] theorem setFb_dt (s : State) (f : Framebuffer) : (s.setFb f).dt = s.dt := rfl
@[simp] theorem setFb_st (s : State) (f : Framebuffer) : (s.setFb f).st = s.st := rfl
@[simp] theorem setFb_mem (s : State) (f : Framebuffer) : (s.setFb f).mem = s.mem := rfl
@[simp] theorem setFb_fb (s : State) (f : Framebuffer) : (s.setFb f).fb = f := rfl
@[simp] theorem setFb_redrawFlag (s : State) (f : Framebuffer) : (s.setFb f).redrawFlag = s.redrawFlag := rfl
@[simp] theorem setFb_soundFlag (s : State) (f : Framebuffer) : (s.setFb f).soundFlag = s.soundFlag := rfl
@[simp] theorem setFb_keys (s : State) (f : Framebuffer) : (s.setFb f).keys = s.keys := rfl
@[simp] theorem setFb_draws (s : State) (f : Framebuffer) : (s.setFb f).draws = s.draws := rfl
@[simp] theorem setFb_report (s : State) (f : Framebuffer) : (s.setFb f).report = s.report := rfl

/-! ### setReport -/

@[simp] theorem setReport_reg (s : State) (r : Report) (x : Reg) : (s.setReport r).reg x = s.reg x := rfl
@[simp] theorem setReport_v (s : State) (r : Report) : (s.setReport r).v = s.v := rfl
@[simp] theorem setReport_i (s : State) (r : Report) : (s.setReport r).i = s.i := rfl
@[simp] theorem setReport_pc (s : State) (r : Report) : (s.setReport r).pc = s.pc := rfl
@[simp] theorem setReport_sp (s : State) (r : Report) : (s.setReport r).sp = s.sp := rfl
@[simp] theorem setReport_stack (s : State) (r : Report) : (s.setReport r).stack = s.stack := rfl
@[simp] theorem setReport_dt (s : State) (r : Report) : (s.setReport r).dt = s.dt := rfl
@[simp] theorem setReport_st (s : State) (r : Report) : (s.setReport r).st = s.st := rfl
@[simp] theorem setReport_mem (s : State) (r : Report) : (s.setReport r).mem = s.mem := rfl
@[simp] theorem setReport_fb (s : State) (r : Report) : (s.setReport r).fb = s.fb := rfl
@[simp] theorem setReport_redrawFlag (s : State) (r : Report) : (s.setReport r).redrawFlag = s.redrawFlag := rfl
@[simp] theorem setReport_soundFlag (s : State) (r : Report) : (s.setReport r).soundFlag = s.soundFlag := rfl
@[simp] theorem setReport_keys (s : State) (r : Report) : (s.setReport r).keys = s.keys := rfl
@[simp] theorem setReport_draws (s : State) (r : Report) : (s.setReport r).draws = s.draws := rfl
@[simp] theorem setReport_report (s : State) (r : Report) : (s.setReport r).report = r := rfl

/-! ### advance -/

@[simp] theorem advance_reg (s : State) (x : Reg) : (advance s).reg x = s.reg x := rfl
@[simp] theorem advance_v (s : State) : (advance s).v = s.v := rfl
@[simp] theorem advance_i (s : State) : (advance s).i = s.i := rfl
@[simp] theorem advance_pc (s : State) : (advance s).pc = s.pc + 2 := rfl
@[simp] theorem advance_sp (s : State) : (advance s).sp = s.sp := rfl
@[simp] theorem advance_stack (s : State) : (advance s).stack = s.stack := rfl
@[simp] theorem advance_dt (s : State) : (advance s).dt = s.dt := rfl
@[simp] theorem advance_st (s : State) : (advance s).st = s.st := rfl
@[simp] theorem advance_mem (s : State) : (advance s).mem = s.mem := rfl
@[simp] theorem advance_fb (s : State) : (advance s).fb = s.fb := rfl
@[simp] theorem advance_redrawFlag (s : State) : (advance s).redrawFlag = s.redrawFlag := rfl
@[simp] theorem advance_soundFlag (s : State) : (advance s).soundFlag = s.soundFlag := rfl
@[simp] theorem advance_keys (s : State) : (advance s).keys = s.keys := rfl
@[simp] theorem advance_draws (s : State) : (advance s).draws = s.draws := rfl
@[simp] theorem advance_report (s : State) : (advance s).report = s.report := rfl

/-! ### timerTick -/

@[simp] theorem timerTick_reg (s : State) (x : Reg) : (timerTick s).reg x = s.reg x := rfl
@[simp] theorem timerTick_v (s : State) : (timerTick s).v = s.v := rfl
@[simp] theorem timerTick_i (s : State) : (timerTick s).i = s.i := rfl
@[simp] theorem timerTick_pc (s : State) : (timerTick s).pc = s.pc := rfl
@[simp] theorem timerTick_sp (s : State) : (timerTick s).sp = s.sp := rfl
@[simp] theorem timerTick_stack (s : State) : (timerTick s).stack = s.stack := rfl
@[simp] theorem timerTick_dt (s : State) : (timerTick s).dt = countDown s.dt := rfl
@[simp] theorem timerTick_st (s : State) : (timerTick s).st = countDown s.st := rfl
@[simp] theorem timerTick_mem (s : State) : (timerTick s).mem = s.mem := rfl
@[simp] theorem timerTick_fb (s : State) : (timerTick s).fb = s.fb := rfl
@[simp] theorem timerTick_redrawFlag (s : State) : (timerTick s).redrawFlag = s.redrawFlag := rfl
@[simp] theorem timerTick_soundFlag (s : State) : (timerTick s).soundFlag = (s.soundFlag || (s.st ≠ 0 && countDown s.st = 0)) := rfl
@[simp] theorem timerTick_keys (s : State) : (timerTick s).keys = s.keys := rfl
@[simp] theorem timerTick_draws (s : State) : (timerTick s).draws = s.draws := rfl
@[simp] theorem timerTick_report (s : State) : (timerTick s).report = s.report := rfl

end Sys2Proof.Machine
end

