-- ==== Sys2Proof/Laws/Memory.lean ====
section
/-! SUPPORT. The laws of memory: a read after a write, the canonical form, and all that a checked access or a run of them
can do. -/

namespace Sys2Proof.Machine

/-! ### One cell -/

theorem Memory.lookup_insert (m : Memory) (a b : Nat) (v : Byte) :
    (m.insert a v).lookup b = if b = a then some v else m.lookup b := by
  induction m with
  | nil => simp [Memory.insert, Memory.lookup]
  | cons c rest ih =>
    obtain ⟨k, u⟩ := c
    simp only [Memory.insert]
    split_ifs with h1 h2 <;> simp only [Memory.lookup, ih] <;> split_ifs <;> first | rfl | omega

theorem Memory.lookup_erase (m : Memory) (a b : Nat) :
    (m.erase a).lookup b = if b = a then none else m.lookup b := by
  induction m with
  | nil => simp [Memory.erase, Memory.lookup]
  | cons c rest ih =>
    obtain ⟨k, u⟩ := c
    simp only [Memory.erase] at ih
    by_cases h : k = a
    · simp only [Memory.erase, Memory.lookup, List.filter_cons, h, ne_eq, not_true_eq_false, decide_false,
        Bool.false_eq_true, if_false, ih]
      split_ifs <;> rfl
    · simp only [Memory.erase, Memory.lookup, List.filter_cons, h, ne_eq, not_false_eq_true, decide_true, if_true, ih]
      split_ifs <;> first | rfl | omega

/-- A byte read after a byte write: the value written there, what was there elsewhere. -/
theorem Memory.peek_poke (m : Memory) (a b : Nat) (v : Byte) :
    (m.poke a v).peek b = if b = a then v else m.peek b := by
  unfold Memory.poke Memory.peek
  split_ifs with h1 h2 h2
  · rw [Memory.lookup_erase, if_pos h2, h2, h1, Option.getD_none]
  · rw [Memory.lookup_erase, if_neg h2]
  · rw [Memory.lookup_insert, if_pos h2, Option.getD_some]
  · rw [Memory.lookup_insert, if_neg h2]

theorem Memory.mem_insert {m : Memory} {a : Nat} {v : Byte} {c : Host.Cell} (h : c ∈ m.insert a v) :
    c = (a, v) ∨ c ∈ m := by
  induction m with
  | nil => exact .inl (by simpa [Memory.insert] using h)
  | cons d rest ih =>
    obtain ⟨k, u⟩ := d
    simp only [Memory.insert] at h
    split_ifs at h
    · simpa using h
    · rcases List.mem_cons.1 h with h | h
      · exact .inl h
      · exact .inr (List.mem_cons_of_mem _ h)
    · rcases List.mem_cons.1 h with h | h
      · exact .inr (h ▸ List.mem_cons_self)
      · exact (ih h).imp id (List.mem_cons_of_mem _)

theorem Memory.insert_sorted {m : Memory} (h : (m.map Prod.fst).Pairwise (· < ·)) (a : Nat) (v : Byte) :
    ((m.insert a v).map Prod.fst).Pairwise (· < ·) := by
  induction m with
  | nil => simp [Memory.insert]
  | cons c rest ih =>
    obtain ⟨k, u⟩ := c
    simp only [List.map_cons, List.pairwise_cons] at h
    simp only [Memory.insert]
    split_ifs with h1 h2
    · simp only [List.map_cons, List.pairwise_cons, List.mem_cons, forall_eq_or_imp]
      exact ⟨⟨h1, fun b hb => h1.trans (h.1 b hb)⟩, h.1, h.2⟩
    · subst h2
      exact List.pairwise_cons.2 h
    · refine List.pairwise_cons.2 ⟨fun b hb => ?_, ih h.2⟩
      obtain ⟨d, hd, rfl⟩ := List.mem_map.1 hb
      rcases Memory.mem_insert hd with rfl | hd
      · show k < a
        omega
      · exact h.1 _ (List.mem_map_of_mem hd)

/-- A write inside the address space keeps the canonical form. -/
theorem Memory.poke_wf {m : Memory} (h : m.wf) {a : Nat} (ha : a < 4096) (v : Byte) : (m.poke a v).wf := by
  unfold Memory.poke
  split_ifs with hv
  · exact ⟨h.1.sublist (List.filter_sublist.map _), fun c hc => h.2 c (List.mem_filter.1 hc).1⟩
  · refine ⟨Memory.insert_sorted h.1 a v, fun c hc => ?_⟩
    rcases Memory.mem_insert hc with rfl | hc
    · exact ⟨ha, hv⟩
    · exact h.2 c hc

/-- A write lists no address but its own. -/
theorem Memory.mem_poke {m : Memory} {a : Nat} {v : Byte} {c : Host.Cell} (h : c ∈ m.poke a v) :
    c.1 = a ∨ c ∈ m := by
  unfold Memory.poke at h
  split_ifs at h
  · exact .inr (List.mem_filter.1 h).1
  · exact (Memory.mem_insert h).imp (fun e => by rw [e]) id

theorem reset_mem_wf : State.reset.mem.wf := ⟨List.Pairwise.nil, by simp [State.reset]⟩

/-! ### A run of bytes -/

/-- A byte read after a run of byte writes. -/
theorem Memory.peek_pokeBytes (bs : List Byte) (m : Memory) (a b : Nat) :
    (m.pokeBytes a bs).peek b = if h : a ≤ b ∧ b - a < bs.length then bs[b - a]'h.2 else m.peek b := by
  induction bs generalizing m a with
  | nil => simp [Memory.pokeBytes]
  | cons v rest ih =>
    rw [Memory.pokeBytes, ih]
    by_cases h : b = a
    · subst h
      simp [Memory.peek_poke]
    · rw [Memory.peek_poke, if_neg h]
      by_cases h1 : a + 1 ≤ b ∧ b - (a + 1) < rest.length
      · have h2 : a ≤ b ∧ b - a < (v :: rest).length := by simp; omega
        rw [dif_pos h1, dif_pos h2]
        have : b - a = (b - (a + 1)) + 1 := by omega
        simp [this]
      · have h2 : ¬(a ≤ b ∧ b - a < (v :: rest).length) := by simp; omega
        rw [dif_neg h1, dif_neg h2]

theorem Memory.pokeBytes_wf (bs : List Byte) {m : Memory} (h : m.wf) {a : Nat} (ha : a + bs.length ≤ 4096) :
    (m.pokeBytes a bs).wf := by
  induction bs generalizing m a with
  | nil => exact h
  | cons v rest ih =>
    simp only [List.length_cons] at ha
    exact ih (Memory.poke_wf h (by omega) v) (by omega)

theorem Memory.mem_pokeBytes (bs : List Byte) {m : Memory} {a : Nat} {c : Host.Cell} (h : c ∈ m.pokeBytes a bs) :
    a ≤ c.1 ∨ c ∈ m := by
  induction bs generalizing m a with
  | nil => exact .inr h
  | cons v rest ih =>
    rcases ih h with h | h
    · omega
    · exact (Memory.mem_poke h).imp (fun e => by omega) id

/-! ### Checked accesses -/

/-- All a byte read can do (R55). -/
theorem memRead_eq (kind : Access) (pc0 : Word) (a : Nat) (s : State) :
    memRead kind pc0 a s =
      if 4096 ≤ a then .error (.addressOutOfRange a kind .beyondSpace pc0) else .ok (s.mem.peek a) := rfl

theorem memRead_of_lt (kind : Access) (pc0 : Word) {a : Nat} (s : State) (h : a < 4096) :
    memRead kind pc0 a s = .ok (s.mem.peek a) := if_neg (by simp; omega)

theorem memRead_of_le (kind : Access) (pc0 : Word) {a : Nat} (s : State) (h : 4096 ≤ a) :
    memRead kind pc0 a s = .error (.addressOutOfRange a kind .beyondSpace pc0) := if_pos h

/-- All a run of checked writes can do when it completes: it wrote every byte, inside the program/data region (R56). -/
theorem memWriteBytes_ok {pc0 : Word} {a : Nat} {bs : List Byte} {s t : State}
    (h : memWriteBytes pc0 a bs s = .ok t) :
    t = s.setMem (s.mem.pokeBytes a bs) ∧ (bs ≠ [] → 0x200 ≤ a ∧ a + bs.length ≤ 4096) := by
  induction bs generalizing a s with
  | nil => exact ⟨(Except.ok.inj h).symm, fun h => absurd rfl h⟩
  | cons b rest ih =>
    simp only [memWriteBytes, memWrite] at h
    split_ifs at h with h1 h2
    obtain ⟨ht, hr⟩ := ih h
    refine ⟨ht, fun _ => ?_⟩
    simp only [List.length_cons]
    by_cases he : rest = []
    · subst he; simp at *; omega
    · have := hr he; simp at *; omega

/-- A run of checked writes inside the program/data region completes. -/
theorem memWriteBytes_eq (pc0 : Word) {a : Nat} (bs : List Byte) (s : State) (ha : 0x200 ≤ a)
    (hb : a + bs.length ≤ 4096) : memWriteBytes pc0 a bs s = .ok (s.setMem (s.mem.pokeBytes a bs)) := by
  induction bs generalizing a s with
  | nil => rfl
  | cons b rest ih =>
    simp only [List.length_cons] at hb
    have h1 : ¬ Config.memSize ≤ a := by simp; omega
    have h2 : ¬ a < Config.progBase := by simp; omega
    simp only [memWriteBytes, memWrite, h1, h2, if_false]
    exact ih _ (by omega) (by omega)

/-- A run of checked writes that starts below the program/data region faults at its first byte (R56, R237). -/
theorem memWriteBytes_below (pc0 : Word) {a : Nat} {bs : List Byte} (s : State) (hb : bs ≠ []) (ha : a < 0x200) :
    memWriteBytes pc0 a bs s = .error (.addressOutOfRange a .write .belowProgramBoundary pc0) := by
  obtain ⟨b, rest, rfl⟩ := List.exists_cons_of_ne_nil hb
  have h1 : ¬ Config.memSize ≤ a := by simp; omega
  have h2 : a < Config.progBase := by simpa using ha
  simp only [memWriteBytes, memWrite, if_neg h1, if_pos h2]

/-- A run of checked writes that passes the end of memory faults at the first address past it (R56, R237). -/
theorem memWriteBytes_beyond (pc0 : Word) {a : Nat} {bs : List Byte} (s : State) (hb : bs ≠ []) (ha : 0x200 ≤ a)
    (he : 4096 < a + bs.length) :
    memWriteBytes pc0 a bs s = .error (.addressOutOfRange (max a 4096) .write .beyondSpace pc0) := by
  induction bs generalizing a s with
  | nil => exact absurd rfl hb
  | cons b rest ih =>
    simp only [List.length_cons] at he
    by_cases h1 : Config.memSize ≤ a
    · have : max a 4096 = a := by simp at h1; omega
      simp only [memWriteBytes, memWrite, if_pos h1, this]
    · have h2 : ¬ a < Config.progBase := by simp; omega
      simp only [memWriteBytes, memWrite, if_neg h1, if_neg h2]
      have hr : rest ≠ [] := fun e => by subst e; simp at *; omega
      rw [ih _ hr (by omega) (by omega)]
      simp at h1
      congr 2
      omega

/-- All a run of register loads can do when it completes: it changes general registers only, each register of the list ends
as the byte at its place, the others as before (R195). -/
theorem memLoadRegs_ok {pc0 : Word} {a : Nat} {ks : List Reg} {s t : State} (h : memLoadRegs pc0 a ks s = .ok t)
    (hk : ks.Nodup) :
    t = { s with v := t.v } ∧ (∀ r, r ∉ ks → t.reg r = s.reg r) ∧
      (∀ j (hj : j < ks.length), t.reg ks[j] = s.mem.peek (a + j)) ∧ (ks ≠ [] → a + ks.length ≤ 4096) := by
  induction ks generalizing a s with
  | nil =>
    obtain rfl : s = t := by simpa [memLoadRegs] using h
    exact ⟨rfl, fun _ _ => rfl, fun _ hj => absurd hj (by simp), fun h => absurd rfl h⟩
  | cons k rest ih =>
    simp only [memLoadRegs, memRead_eq] at h
    split_ifs at h with h1
    obtain ⟨hk1, hk2⟩ := List.nodup_cons.1 hk
    obtain ⟨ht, ho, hl, hb⟩ := ih h hk2
    refine ⟨by rw [ht]; rfl, fun r hr => ?_, fun j hj => ?_, fun _ => ?_⟩
    · simp only [List.mem_cons, not_or] at hr
      rw [ho r hr.2, reg_setReg_of_ne s _ hr.1]
    · cases j with
      | zero => simp only [List.getElem_cons_zero]; rw [ho k hk1, reg_setReg_same, Nat.add_zero]
      | succ j =>
        simp only [List.getElem_cons_succ]
        rw [hl j (by simpa using hj), setReg_mem]
        congr 1
        omega
    · by_cases he : rest = []
      · subst he; simp; omega
      · have := hb he; simp only [List.length_cons]; omega

/-- A run of register loads inside the address space completes. -/
theorem memLoadRegs_completes (pc0 : Word) {a : Nat} (ks : List Reg) (s : State) (hb : a + ks.length ≤ 4096) :
    ∃ t, memLoadRegs pc0 a ks s = .ok t := by
  induction ks generalizing a s with
  | nil => exact ⟨s, rfl⟩
  | cons k rest ih =>
    simp only [List.length_cons] at hb
    rw [memLoadRegs, memRead_of_lt _ _ _ (by omega)]
    exact ih _ (by omega)

/-- A run of register loads that passes the end of memory faults at the first address past it (R55, R237). -/
theorem memLoadRegs_beyond (pc0 : Word) {a : Nat} {ks : List Reg} (s : State) (hk : ks ≠ [])
    (he : 4096 < a + ks.length) :
    memLoadRegs pc0 a ks s = .error (.addressOutOfRange (max a 4096) .read .beyondSpace pc0) := by
  induction ks generalizing a s with
  | nil => exact absurd rfl hk
  | cons k rest ih =>
    simp only [List.length_cons] at he
    by_cases h1 : 4096 ≤ a
    · rw [memLoadRegs, memRead_of_le _ _ _ h1, Nat.max_eq_left h1]
    · rw [memLoadRegs, memRead_of_lt _ _ _ (by omega)]
      have hr : rest ≠ [] := fun e => by subst e; simp at *; omega
      simp only
      rw [ih _ hr (by omega)]
      congr 2
      omega

end Sys2Proof.Machine
end

