-- ==== Sys2Proof/Laws/Ops.lean ====
section
/-! SUPPORT. All that each shared operation beside the memory ones can do: the call stack, fetch, the timers, and the
completion of an instruction. -/

namespace Sys2Proof.Machine

/-! ### The call stack -/

/-- A push with room (R130). -/
theorem push_eq (pc0 v : Word) {s : State} (h : s.sp.val < 16) :
    push pc0 v s = .ok { s with stack := s.stack.set s.sp.val v, sp := ⟨s.sp.val + 1, by omega⟩ } := dif_pos h

/-- A push on a full stack (R130). -/
theorem push_full (pc0 v : Word) {s : State} (h : s.sp.val = 16) : push pc0 v s = .error (.stackOverflow pc0 16) := by
  have h' : ¬ s.sp.val < 16 := by omega
  rw [push, dif_neg h', h]

/-- All a push can do when it completes. -/
theorem push_ok {pc0 v : Word} {s t : State} (h : push pc0 v s = .ok t) :
    s.sp.val < 16 ∧ t.sp.val = s.sp.val + 1 ∧ t = { s with stack := t.stack, sp := t.sp } ∧
      ∀ k : Fin 16, t.stack[k] = if k.val = s.sp.val then v else s.stack[k] := by
  unfold push at h
  split_ifs at h with hs
  obtain rfl := Except.ok.inj h
  refine ⟨hs, rfl, rfl, fun k => ?_⟩
  by_cases hk : k.val = s.sp.val
  · simp [hk]
  · simp [hk, Ne.symm hk]

/-- A pop with a return address held (R131). -/
theorem pop_eq (pc0 : Word) {s : State} (h : 0 < s.sp.val) :
    pop pc0 s = .ok ({ s with sp := ⟨s.sp.val - 1, by omega⟩ }, s.stack[s.sp.val - 1]) := dif_pos h

/-- A pop of an empty stack (R131). -/
theorem pop_empty (pc0 : Word) {s : State} (h : s.sp.val = 0) : pop pc0 s = .error (.stackUnderflow pc0 0) := by
  have h' : ¬ 0 < s.sp.val := by omega
  rw [pop, dif_neg h', h]

/-- All a pop can do when it completes. -/
theorem pop_ok {pc0 w : Word} {s t : State} (h : pop pc0 s = .ok (t, w)) :
    0 < s.sp.val ∧ t.sp.val + 1 = s.sp.val ∧ t = { s with sp := t.sp } ∧
      ∃ k : Fin 16, k.val + 1 = s.sp.val ∧ w = s.stack[k] := by
  unfold pop at h
  split_ifs at h with hs
  obtain ⟨rfl, rfl⟩ := Prod.mk.inj (Except.ok.inj h)
  exact ⟨hs, by simp; omega, rfl, ⟨s.sp.val - 1, by omega⟩, by simp; omega, rfl⟩

/-! ### Fetch -/

/-- A fetch from two addresses inside the space (R57, R81). -/
theorem fetch_eq {s : State} (h : s.pc.toNat < 0xFFF) :
    fetch s = .ok (Word.ofBytes (s.mem.peek s.pc.toNat) (s.mem.peek (s.pc.toNat + 1))) := by
  rw [fetch, memReadWord, memRead_of_lt _ _ _ (by omega)]
  simp only
  rw [memRead_of_lt _ _ _ (by omega)]

/-- A fetch from elsewhere (R57, R81): the first bad address is `pc0`, or 0x1000 when `pc0` is the last byte. -/
theorem fetch_beyond {s : State} (h : 0xFFF ≤ s.pc.toNat) :
    fetch s = .error (.addressOutOfRange (max s.pc.toNat 0x1000) .fetch .beyondSpace s.pc) := by
  rw [fetch, memReadWord]
  by_cases h1 : 0x1000 ≤ s.pc.toNat
  · rw [memRead_of_le _ _ _ h1, Nat.max_eq_left h1]
  · have h2 : s.pc.toNat + 1 = 0x1000 := by omega
    rw [memRead_of_lt _ _ _ (by omega)]
    simp only
    rw [h2, memRead_of_le _ _ _ (by omega), Nat.max_eq_right (by omega)]

/-- All a fetch can do when it completes. -/
theorem fetch_ok {s : State} {w : Word} (h : fetch s = .ok w) :
    s.pc.toNat < 0xFFF ∧ w = Word.ofBytes (s.mem.peek s.pc.toNat) (s.mem.peek (s.pc.toNat + 1)) := by
  by_cases hp : s.pc.toNat < 0xFFF
  · rw [fetch_eq hp] at h
    exact ⟨hp, (Except.ok.inj h).symm⟩
  · rw [fetch_beyond (by omega)] at h
    cases h

/-! ### Timers -/

theorem countDown_toNat (b : Byte) : (countDown b).toNat = b.toNat - 1 := by
  unfold countDown
  split_ifs with h
  · simp [h]
  · have : b.toNat ≠ 0 := fun e => h (BitVec.eq_of_toNat_eq (by simpa using e))
    rw [BitVec.toNat_sub]
    simp
    omega

/-- The sound flag is raised exactly by the tick that takes `ST` from 1 to 0 (R245). -/
theorem timerTick_sound (s : State) :
    (timerTick s).soundFlag = true ↔ s.soundFlag = true ∨ s.st = 1 := by
  have key : (s.st ≠ 0 ∧ countDown s.st = 0) ↔ s.st = 1 := by
    constructor
    · rintro ⟨h0, h1⟩
      rw [countDown, if_neg h0] at h1
      have := congrArg (· + 1) h1
      simpa using this
    · intro h
      rw [h]
      decide
  rw [timerTick_soundFlag, ← key]
  simp

/-- All a tick does (R244). -/
theorem timerTick_ticks (s : State) : Ticks s.dt s.st s (timerTick s) :=
  ⟨countDown_toNat s.dt, countDown_toNat s.st, timerTick_sound s⟩

/-! ### Completion -/

/-- An instruction answers a next state exactly when its body completes after the advance of `PC` (R80, R236). -/
theorem complete_next {body : State → Except Fault State} {s t : State} :
    complete body s = .next t ↔ ∃ u, body (advance s) = .ok u ∧ t = (timerTick u).setReport .ok := by
  unfold complete
  cases h : body (advance s) with
  | error f => simp
  | ok u => simp [eq_comm]

/-- An instruction faults exactly when its body does (R233). -/
theorem complete_fault {body : State → Except Fault State} {s : State} {f : Fault} :
    complete body s = .fault f ↔ body (advance s) = .error f := by
  unfold complete
  cases h : body (advance s) <;> simp

theorem complete_not_refused {body : State → Except Fault State} {s : State} {r : Refusal} :
    complete body s ≠ .refused r := by
  unfold complete
  cases body (advance s) <;> simp

/-- A body that completes gives its instruction's next state. -/
theorem complete_ok {body : State → Except Fault State} {s u : State} (h : body (advance s) = .ok u) :
    complete body s = .next ((timerTick u).setReport .ok) := complete_next.2 ⟨u, h, rfl⟩

/-- How a completed instruction ends: from the timers its body left, and from the sound flag, which no body writes. -/
theorem finish_ticks {u s : State} (h : u.soundFlag = s.soundFlag) :
    Ticks u.dt u.st s ((timerTick u).setReport .ok) := by
  refine ⟨countDown_toNat u.dt, countDown_toNat u.st, ?_⟩
  rw [setReport_soundFlag, timerTick_sound, h]

/-- What a step can do: a fetch fault, a decode failure, or what the decoded instruction does (R237). -/
theorem step_cases (s : State) :
    (∃ f, fetch s = .error f ∧ step s = .fault f) ∨
    (∃ w e, fetch s = .ok w ∧ decode w = .error e ∧ step s = failDecode w s) ∨
    (∃ w i, fetch s = .ok w ∧ decode w = .ok i ∧ step s = exec i s) := by
  unfold step
  cases hf : fetch s with
  | error f => exact .inl ⟨f, rfl, rfl⟩
  | ok w =>
    cases hd : decode w with
    | error e => exact .inr (.inl ⟨w, e, rfl, hd, by simp [hd]⟩)
    | ok i => exact .inr (.inr ⟨w, i, rfl, hd, by simp [hd]⟩)

/-! ### The codes of the causes -/

/-- An instruction that completes ends with no cause, and one that faults with the code of its fault (R234, R236). -/
theorem causeCode_complete (body : State → Except Fault State) (s : State) :
    causeCode (complete body s) =
      match body (advance s) with
      | .ok _ => none
      | .error f => some f.code := by
  unfold complete
  cases body (advance s) <;> rfl

@[simp] theorem causeCode_hold (s : State) : causeCode (hold s) = none := rfl

@[simp] theorem causeCode_failDecode (w : Word) (s : State) : causeCode (failDecode w s) = some 1 := rfl

/-- Only the causes of R234 have a code, and the code of a fault is not that of a decode failure. -/
theorem Fault.code_range (f : Fault) : 2 ≤ f.code ∧ f.code ≤ 5 := by cases f <;> simp [Fault.code]

/-! ### Free values -/

/-- What a choice among the pressed keys can be: any pressed key, and no other (R214). -/
theorem chooseKey_pressed {s : State} (h : noKeyPressed s = false) : s.keys[(chooseKey s).1] = true := by
  have hne : pressedKeys s ≠ [] := by simpa [noKeyPressed] using h
  have hlen : 0 < (pressedKeys s).length := List.length_pos_iff.2 hne
  have hlt := Nat.mod_lt (Config.keyChoice s.draws) hlen
  have hmem : (chooseKey s).1 ∈ pressedKeys s := by
    simp only [chooseKey, List.getD_eq_getElem?_getD, List.getElem?_eq_getElem hlt, Option.getD_some]
    exact List.getElem_mem hlt
  simpa [pressedKeys] using hmem

/-- No key is pressed (R80). -/
theorem noKeyPressed_iff (s : State) : noKeyPressed s = true ↔ ∀ k : Fin 16, s.keys[k] = false := by
  simp [noKeyPressed, pressedKeys]

/-! ### Registers by index -/

theorem regsUpTo_length (x : Reg) : (regsUpTo x).length = x.val + 1 := by simp [regsUpTo]

theorem regsUpTo_getElem (x : Reg) (j : Nat) (h : j < (regsUpTo x).length) :
    ((regsUpTo x)[j]).val = j := by
  have : j < 16 := by rw [regsUpTo_length] at h; omega
  simp [regsUpTo, Nat.mod_eq_of_lt this]

theorem mem_regsUpTo {x r : Reg} : r ∈ regsUpTo x ↔ r.val ≤ x.val := by
  constructor
  · intro h
    obtain ⟨j, hj, rfl⟩ := List.mem_iff_getElem.1 h
    rw [regsUpTo_getElem]
    rw [regsUpTo_length] at hj
    omega
  · intro h
    have hj : r.val < (regsUpTo x).length := by rw [regsUpTo_length]; omega
    have : (regsUpTo x)[r.val] = r := Fin.ext (regsUpTo_getElem x r.val hj)
    exact this ▸ List.getElem_mem hj

theorem regsUpTo_nodup (x : Reg) : (regsUpTo x).Nodup := by
  rw [List.nodup_iff_injective_get]
  intro a b h
  have := congrArg Fin.val h
  simp only [List.get_eq_getElem, regsUpTo_getElem] at this
  exact Fin.ext this

theorem regsUpTo_ne_nil (x : Reg) : regsUpTo x ≠ [] := by simp [regsUpTo]

end Sys2Proof.Machine
end

