-- ==== Sys2Proof/Laws/Display.lean ====
section
/-! SUPPORT. All that drawing can do: which cells a run of pixel columns, and then of rows, flips, and the collision flag it
leaves. No cell is touched twice, because a row spans eight of 64 columns and at most 15 of 32 rows are drawn (R111). -/

namespace Sys2Proof.Machine

theorem Framebuffer.cell_flip (fb : Framebuffer) (c c' : Fin 64) (r r' : Fin 32) :
    (fb.flip c r).cell c' r' = (if c' = c ∧ r' = r then !fb.cell c' r' else fb.cell c' r') := by
  unfold Framebuffer.flip Framebuffer.cell
  by_cases hc : c' = c
  · subst hc
    by_cases hr : r' = r
    · subst hr; simp
    · have : r.val ≠ r'.val := fun e => hr (Fin.ext e.symm)
      simp [hr, this]
  · have : c.val ≠ c'.val := fun e => hc (Fin.ext e.symm)
    simp [hc, this]

theorem Framebuffer.cell_clear (c : Fin 64) (r : Fin 32) : Framebuffer.clear.cell c r = false := by
  simp [Framebuffer.clear, Framebuffer.cell]

/-- Two framebuffers with the same cells are the same. -/
theorem Framebuffer.ext_cell {f g : Framebuffer} (h : ∀ c r, f.cell c r = g.cell c r) : f = g :=
  Vector.ext fun c hc => Vector.ext fun r hr => h ⟨c, hc⟩ ⟨r, hr⟩

/-- Column `c`, row `r` is hit by the pixel columns `c0` to `c0 + k - 1` of the byte `b` drawn on `row`. -/
def ColumnsCover (b : Byte) (px : Nat) (row : Fin 32) (c0 k : Nat) (c : Fin 64) (r : Fin 32) : Prop :=
  r = row ∧ ∃ col, c0 ≤ col ∧ col < c0 + k ∧ b.getLsbD (7 - col) = true ∧ c.val = (px + col) % 64

/-- All a run of pixel columns can do: it flips the cells it covers, leaves `VF` at 1 exactly when one of them was set,
and changes nothing else. -/
theorem drawColumns_spec (b : Byte) (px : Nat) (row : Fin 32) (k c0 : Nat) (s : State) (hk : c0 + k ≤ 8) :
    let t := drawColumns b px row k c0 s
    t = { s with v := t.v, fb := t.fb } ∧
    (∀ r, r ≠ 15 → t.reg r = s.reg r) ∧
    (∀ c r, ColumnsCover b px row c0 k c r → t.fb.cell c r = !s.fb.cell c r) ∧
    (∀ c r, ¬ ColumnsCover b px row c0 k c r → t.fb.cell c r = s.fb.cell c r) ∧
    ((∃ c r, ColumnsCover b px row c0 k c r ∧ s.fb.cell c r = true) → t.reg 15 = 1) ∧
    ((∀ c r, ColumnsCover b px row c0 k c r → s.fb.cell c r = false) → t.reg 15 = s.reg 15) := by
  induction k generalizing c0 s with
  | zero =>
    refine ⟨rfl, fun _ _ => rfl, ?_, fun _ _ _ => rfl, ?_, fun _ => rfl⟩
    · rintro c r ⟨-, col, h1, h2, -⟩; omega
    · rintro ⟨c, r, ⟨-, col, h1, h2, -⟩, -⟩; omega
  | succ k ih =>
    intro t
    by_cases hb : b.getLsbD (7 - c0) = true
    · have ht : t = drawColumns b px row k (c0 + 1) (drawPixel (wrapColumn px c0) row s) := by
        show drawColumns b px row (k + 1) c0 s = _
        rw [drawColumns, if_pos hb]
      have hw : (wrapColumn px c0).val = (px + c0) % 64 := by simp [wrapColumn]
      have hp : drawPixel (wrapColumn px c0) row s =
          { s with v := (drawPixel (wrapColumn px c0) row s).v, fb := s.fb.flip (wrapColumn px c0) row } := by
        unfold drawPixel; split_ifs <;> rfl
      have hfb : (drawPixel (wrapColumn px c0) row s).fb = s.fb.flip (wrapColumn px c0) row := by rw [hp]
      obtain ⟨i1, i2, i3, i4, i5, i6⟩ := ih (c0 + 1) (drawPixel (wrapColumn px c0) row s) (by omega)
      rw [← ht] at i1 i2 i3 i4 i5 i6
      rw [hfb] at i3 i4 i5 i6
      -- what the first pixel covers, and that no later one covers it again
      have hsplit : ∀ c r, ColumnsCover b px row c0 (k + 1) c r ↔
          (c = wrapColumn px c0 ∧ r = row) ∨ ColumnsCover b px row (c0 + 1) k c r := by
        intro c r
        constructor
        · rintro ⟨hr, col, h1, h2, h3, h4⟩
          by_cases he : col = c0
          · subst he; exact .inl ⟨Fin.ext (h4.trans hw.symm), hr⟩
          · exact .inr ⟨hr, col, by omega, by omega, h3, h4⟩
        · rintro (⟨hc, hr⟩ | ⟨hr, col, h1, h2, h3, h4⟩)
          · exact ⟨hr, c0, le_refl _, by omega, hb, by rw [hc, hw]⟩
          · exact ⟨hr, col, by omega, by omega, h3, h4⟩
      have hdisj : ¬ ColumnsCover b px row (c0 + 1) k (wrapColumn px c0) row := by
        rintro ⟨-, col, h1, h2, -, h4⟩
        rw [hw] at h4
        omega
      refine ⟨by rw [i1, hp], fun r hr => ?_, fun c r h => ?_, fun c r h => ?_, fun h => ?_, fun h => ?_⟩
      · rw [i2 r hr]
        unfold drawPixel
        split_ifs
        · rw [setFb_reg, setVF_eq, reg_setReg_of_ne s _ hr]
        · simp
      · rcases (hsplit c r).1 h with ⟨rfl, rfl⟩ | h'
        · rw [i4 _ _ hdisj, Framebuffer.cell_flip, if_pos ⟨rfl, rfl⟩]
        · rw [i3 c r h', Framebuffer.cell_flip, if_neg]
          rintro ⟨rfl, rfl⟩
          exact hdisj h'
      · have h1 := fun h' => h ((hsplit c r).2 h')
        rw [i4 c r fun h' => h1 (.inr h'), Framebuffer.cell_flip, if_neg fun h' => h1 (.inl h')]
      · by_cases hc : s.fb.cell (wrapColumn px c0) row = true
        · have hv : (drawPixel (wrapColumn px c0) row s).reg 15 = 1 := by
            unfold drawPixel; rw [if_pos hc]; simp
          by_cases hex : ∃ c r, ColumnsCover b px row (c0 + 1) k c r ∧
              (s.fb.flip (wrapColumn px c0) row).cell c r = true
          · exact i5 hex
          · rw [← hv]
            exact i6 fun c r h' => by simpa using fun h2 => hex ⟨c, r, h', h2⟩
        · obtain ⟨c, r, h', h2⟩ := h
          refine i5 ⟨c, r, ?_, ?_⟩
          · rcases (hsplit c r).1 h' with ⟨rfl, rfl⟩ | h''
            · exact absurd h2 hc
            · exact h''
          · rw [Framebuffer.cell_flip, if_neg]
            · exact h2
            · rintro ⟨rfl, rfl⟩; exact hc h2
      · have hc := h _ _ ((hsplit _ _).2 (.inl ⟨rfl, rfl⟩))
        have hv : (drawPixel (wrapColumn px c0) row s).reg 15 = s.reg 15 := by
          unfold drawPixel; rw [if_neg (by simp [hc])]; simp
        rw [← hv]
        refine i6 fun c r h' => ?_
        rw [Framebuffer.cell_flip, if_neg]
        · exact h c r ((hsplit c r).2 (.inr h'))
        · rintro ⟨rfl, rfl⟩; exact hdisj h'
    · have ht : t = drawColumns b px row k (c0 + 1) s := by
        show drawColumns b px row (k + 1) c0 s = _
        rw [drawColumns, if_neg hb]
      have hsame : ∀ c r, ColumnsCover b px row c0 (k + 1) c r ↔ ColumnsCover b px row (c0 + 1) k c r := by
        intro c r
        constructor
        · rintro ⟨hr, col, h1, h2, h3, h4⟩
          have : col ≠ c0 := fun e => hb (e ▸ h3)
          exact ⟨hr, col, by omega, by omega, h3, h4⟩
        · rintro ⟨hr, col, h1, h2, h3, h4⟩
          exact ⟨hr, col, by omega, by omega, h3, h4⟩
      have := ih (c0 + 1) s (by omega)
      simp only [hsame]
      rw [ht]
      exact this

/-- Column `c`, row `r` is hit by the rows `r0` to `r0 + k - 1` of the sprite whose bytes stand from `base` in `m`. -/
def RowsCover (m : Memory) (base px py r0 k : Nat) (c : Fin 64) (r : Fin 32) : Prop :=
  ∃ row, r0 ≤ row ∧ row < r0 + k ∧ ∃ col < 8, (m.peek (base + row)).getLsbD (7 - col) = true ∧
    c.val = (px + col) % 64 ∧ r.val = (py + row) % 32

/-- A sprite inside the address space is drawn. -/
theorem drawRows_completes (pc0 : Word) (base px py k r0 : Nat) (s : State) (hb : base + r0 + k ≤ 4096) :
    ∃ t, drawRows pc0 base px py k r0 s = .ok t := by
  induction k generalizing r0 s with
  | zero => exact ⟨s, rfl⟩
  | succ k ih =>
    rw [drawRows, memRead_of_lt _ _ _ (by omega)]
    exact ih _ _ (by omega)

/-- A sprite that passes the end of memory faults at the first address past it (R111, R237). -/
theorem drawRows_beyond (pc0 : Word) (base px py k r0 : Nat) (s : State) (hk : k ≠ 0) (hb : 4096 < base + r0 + k) :
    drawRows pc0 base px py k r0 s =
      .error (.addressOutOfRange (max (base + r0) 4096) .read .beyondSpace pc0) := by
  induction k generalizing r0 s with
  | zero => exact absurd rfl hk
  | succ k ih =>
    by_cases h1 : 4096 ≤ base + r0
    · rw [drawRows, memRead_of_le _ _ _ h1, Nat.max_eq_left h1]
    · rw [drawRows, memRead_of_lt _ _ _ (by omega)]
      simp only
      rw [ih _ _ (by omega) (by omega)]
      congr 2
      omega

/-- All a run of rows can do when it completes: it flips the cells it covers, leaves `VF` at 1 exactly when one of them was
set, and changes nothing else. -/
theorem drawRows_spec {pc0 : Word} {base px py k r0 : Nat} {s t : State} (hk : r0 + k ≤ 32)
    (h : drawRows pc0 base px py k r0 s = .ok t) :
    t = { s with v := t.v, fb := t.fb } ∧
    (∀ r, r ≠ 15 → t.reg r = s.reg r) ∧
    (∀ c r, RowsCover s.mem base px py r0 k c r → t.fb.cell c r = !s.fb.cell c r) ∧
    (∀ c r, ¬ RowsCover s.mem base px py r0 k c r → t.fb.cell c r = s.fb.cell c r) ∧
    ((∃ c r, RowsCover s.mem base px py r0 k c r ∧ s.fb.cell c r = true) → t.reg 15 = 1) ∧
    ((∀ c r, RowsCover s.mem base px py r0 k c r → s.fb.cell c r = false) → t.reg 15 = s.reg 15) ∧
    (k ≠ 0 → base + r0 + k ≤ 4096) := by
  induction k generalizing r0 s with
  | zero =>
    obtain rfl : s = t := Except.ok.inj h
    refine ⟨rfl, fun _ _ => rfl, ?_, fun _ _ _ => rfl, ?_, fun _ => rfl, fun h => absurd rfl h⟩
    · rintro c r ⟨row, h1, h2, -⟩; omega
    · rintro ⟨c, r, ⟨row, h1, h2, -⟩, -⟩; omega
  | succ k ih =>
    rw [drawRows, memRead_eq] at h
    split_ifs at h with hlt
    simp only at h
    obtain ⟨d1, d2, d3, d4, d5, d6⟩ := drawColumns_spec (s.mem.peek (base + r0)) px (wrapRow py r0) 8 0 s (le_refl _)
    generalize hu : drawColumns (s.mem.peek (base + r0)) px (wrapRow py r0) 8 0 s = u at h d1 d2 d3 d4 d5 d6
    have hmem : u.mem = s.mem := by rw [d1]
    obtain ⟨i1, i2, i3, i4, i5, i6, i7⟩ := ih (by omega) h
    rw [hmem] at i3 i4 i5 i6
    have hw : (wrapRow py r0).val = (py + r0) % 32 := by simp [wrapRow]
    have hsplit : ∀ c r, RowsCover s.mem base px py r0 (k + 1) c r ↔
        ColumnsCover (s.mem.peek (base + r0)) px (wrapRow py r0) 0 8 c r ∨
          RowsCover s.mem base px py (r0 + 1) k c r := by
      intro c r
      constructor
      · rintro ⟨row, h1, h2, col, h3, h4, h5, h6⟩
        by_cases he : row = r0
        · subst he; exact .inl ⟨Fin.ext (h6.trans hw.symm), col, by omega, by omega, h4, h5⟩
        · exact .inr ⟨row, by omega, by omega, col, h3, h4, h5, h6⟩
      · rintro (⟨hr, col, -, h3, h4, h5⟩ | ⟨row, h1, h2, h3⟩)
        · exact ⟨r0, le_refl _, by omega, col, by omega, h4, h5, by rw [hr, hw]⟩
        · exact ⟨row, by omega, by omega, h3⟩
    have hdisj : ∀ c r, ColumnsCover (s.mem.peek (base + r0)) px (wrapRow py r0) 0 8 c r →
        ¬ RowsCover s.mem base px py (r0 + 1) k c r := by
      rintro c r ⟨hr, -⟩ ⟨row, h1, h2, -, -, -, -, h6⟩
      rw [hr, hw] at h6
      omega
    refine ⟨by rw [i1, d1], fun r hr => (i2 r hr).trans (d2 r hr), fun c r hc => ?_, fun c r hc => ?_, fun hc => ?_,
      fun hc => ?_, fun _ => ?_⟩
    · rcases (hsplit c r).1 hc with h' | h'
      · rw [i4 c r (hdisj c r h'), d3 c r h']
      · rw [i3 c r h', d4 c r fun h2 => hdisj c r h2 h']
    · have h1 := fun h' => hc ((hsplit c r).2 h')
      rw [i4 c r fun h' => h1 (.inr h'), d4 c r fun h' => h1 (.inl h')]
    · by_cases hl : ∃ c r, RowsCover s.mem base px py (r0 + 1) k c r ∧ u.fb.cell c r = true
      · exact i5 hl
      · rw [i6 fun c r h' => by simpa using fun h2 => hl ⟨c, r, h', h2⟩]
        obtain ⟨c, r, h', h2⟩ := hc
        refine d5 ⟨c, r, ?_, h2⟩
        rcases (hsplit c r).1 h' with h3 | h3
        · exact h3
        · exact absurd ⟨c, r, h3, by rw [d4 c r fun h4 => hdisj c r h4 h3]; exact h2⟩ hl
    · rw [i6 fun c r h' => ?_, d6 fun c r h' => hc c r ((hsplit c r).2 (.inl h'))]
      rw [d4 c r fun h4 => hdisj c r h4 h']
      exact hc c r ((hsplit c r).2 (.inr h'))
    · omega

end Sys2Proof.Machine
end

