-- ==== Sys2Proof/Laws/Encoding.lean ====
section
/-! SUPPORT. The fields of a word and the formats of the encoder as arithmetic on numbers (spec/30_encoding.md R9, R84): what
each field is of a word, what each format's word is of its fields. -/

namespace Sys2Proof

/-! ### The fields of a word (R9) -/

theorem fieldGroup_eq (w : Word) : fieldGroup w = w.toNat / 4096 := by
  have := w.isLt
  simp [fieldGroup, Nat.shiftRight_eq_div_pow]
  omega

theorem fieldX_val (w : Word) : (fieldX w).val = w.toNat / 256 % 16 := by
  simp [fieldX, Nat.shiftRight_eq_div_pow]

theorem fieldY_val (w : Word) : (fieldY w).val = w.toNat / 16 % 16 := by
  simp [fieldY, Nat.shiftRight_eq_div_pow]

theorem fieldN_toNat (w : Word) : (fieldN w).toNat = w.toNat % 16 := by simp [fieldN]

theorem fieldNn_toNat (w : Word) : (fieldNn w).toNat = w.toNat % 256 := by simp [fieldNn]

theorem fieldNnn_toNat (w : Word) : (fieldNnn w).toNat = w.toNat % 4096 := by simp [fieldNnn]

/-! ### The words of the formats (R84) -/

/-- Fields that do not overlap: the OR of the encoder is a sum. -/
theorem or_eq_add {a b : Nat} (i : Nat) (h : b < 2 ^ i) (ha : a % 2 ^ i = 0) : a ||| b = a + b := by
  obtain ⟨c, rfl⟩ := Nat.dvd_of_mod_eq_zero ha
  rw [Nat.two_pow_add_eq_or_of_lt h]

theorem regBits_toNat (x : Reg) : (regBits x).toNat = x.val := by
  simp [regBits]
  omega

theorem regBits_shiftLeft_toNat (x : Reg) (k : Nat) (hk : k ≤ 12) : (regBits x <<< k).toNat = x.val * 2 ^ k := by
  rw [BitVec.toNat_shiftLeft, regBits_toNat, Nat.shiftLeft_eq, Nat.mod_eq_of_lt]
  calc x.val * 2 ^ k < 2 ^ 4 * 2 ^ k := Nat.mul_lt_mul_of_pos_right x.isLt (by positivity)
    _ = 2 ^ (4 + k) := (Nat.pow_add ..).symm
    _ ≤ 2 ^ 16 := Nat.pow_le_pow_right (by omega) (by omega)

theorem formatNnn_toNat (base : Word) (nnn : Addr) (h : base.toNat % 4096 = 0) :
    (formatNnn base nnn).toNat = base.toNat + nnn.toNat := by
  have := nnn.isLt
  rw [formatNnn, BitVec.toNat_or, BitVec.toNat_setWidth, Nat.mod_eq_of_lt (by omega), or_eq_add 12 this h]

theorem formatXnn_toNat (base : Word) (x : Reg) (nn : Byte) (h : base.toNat % 4096 = 0) :
    (formatXnn base x nn).toNat = base.toNat + x.val * 256 + nn.toNat := by
  have := nn.isLt
  have := x.isLt
  have hx : (regBits x <<< 8).toNat = x.val * 256 := regBits_shiftLeft_toNat x 8 (by omega)
  rw [formatXnn, BitVec.toNat_or, BitVec.toNat_or, BitVec.toNat_setWidth, Nat.mod_eq_of_lt (by omega), hx,
    or_eq_add 12 (by omega) h, or_eq_add 8 (by omega) (by omega)]

theorem formatXyn_toNat (base : Word) (x y : Reg) (n : Nibble) (h : base.toNat % 4096 = 0) :
    (formatXyn base x y n).toNat = base.toNat + x.val * 256 + y.val * 16 + n.toNat := by
  have := n.isLt
  have := x.isLt
  have := y.isLt
  have hx : (regBits x <<< 8).toNat = x.val * 256 := regBits_shiftLeft_toNat x 8 (by omega)
  have hy : (regBits y <<< 4).toNat = y.val * 16 := regBits_shiftLeft_toNat y 4 (by omega)
  rw [formatXyn, BitVec.toNat_or, BitVec.toNat_or, BitVec.toNat_or, BitVec.toNat_setWidth, Nat.mod_eq_of_lt (by omega), hx, hy,
    or_eq_add 12 (by omega) h, or_eq_add (a := base.toNat + x.val * 256) 8 (by omega) (by omega),
    or_eq_add 4 (by omega) (by omega)]

/-- A word is its two bytes, the most-significant first (R59). -/
theorem ofBytes_toNat (hi lo : Byte) : (Word.ofBytes hi lo).toNat = hi.toNat * 256 + lo.toNat := by
  rw [Word.ofBytes, BitVec.toNat_append, Nat.shiftLeft_eq, or_eq_add 8 lo.isLt (by omega)]

end Sys2Proof
end

