-- ==== Sys2Proof/Laws/Operands.lean ====
section
/-! SUPPORT. The operand forms and the flag computations as unsigned integers, the key test and the skip, and the host's
memory: one lemma for all that each can give. -/

namespace Sys2Proof.Machine

/-! ### Operands -/

@[simp] theorem zextAddr_toNat (nnn : Addr) : (zextAddr nnn).toNat = nnn.toNat := by
  simp [zextAddr]
  omega

@[simp] theorem zextByte_toNat (b : Byte) : (zextByte b).toNat = b.toNat := by
  simp [zextByte]
  omega

theorem glyphAddr_toNat (v : Byte) : (glyphAddr v).toNat = v.toNat * 5 := by
  simp [glyphAddr]
  omega

theorem regValues_length (s : State) (x : Reg) : (regValues s x).length = x.val + 1 := by
  simp [regValues, regsUpTo_length]

theorem regValues_ne_nil (s : State) (x : Reg) : regValues s x ≠ [] := by simp [regValues, regsUpTo_ne_nil]

/-- The `k`-th stored value of `FX55` is that of `Vk`. -/
theorem regValues_getElem (s : State) (x : Reg) (k : Nat) (h : k < (regValues s x).length) (hk : k < 16) :
    (regValues s x)[k] = s.reg ⟨k, hk⟩ := by
  simp only [regValues, List.getElem_map]
  congr 1
  exact Fin.ext (regsUpTo_getElem x k _)

/-- All a key test can do (R210). -/
theorem keyPressed_of_le (pc0 : Word) {v : Byte} {s : State} (k : Fin 16) (h : v.toNat = k.val) :
    keyPressed pc0 v s = .ok s.keys[k] := by
  have hv : v.toNat < 16 := by omega
  simp [keyPressed, h]

theorem keyPressed_of_gt (pc0 : Word) {v : Byte} {s : State} (h : 15 < v.toNat) :
    keyPressed pc0 v s = .error (.keyIndexOutOfRange pc0 v) := dif_neg (by omega)

theorem skipIf_pc (c : Bool) (s : State) : (skipIf c s).pc = if c = true then s.pc + 2 else s.pc := by
  cases c <;> rfl

/-- A skip writes nothing but `PC`. -/
theorem skipIf_eq (c : Bool) (s : State) : skipIf c s = s.setPc (skipIf c s).pc := by cases c <;> rfl

/-- What a sprite covers, as the drawing lemmas say it. -/
theorem spriteCovers_iff (s : State) (px py n : Nat) (c : Fin 64) (r : Fin 32) :
    SpriteCovers s px py n c r ↔ RowsCover s.mem s.i.toNat px py 0 n c r := by
  constructor
  · rintro ⟨row, h1, h2⟩
    exact ⟨row, Nat.zero_le _, by omega, h2⟩
  · rintro ⟨row, -, h2, h3⟩
    exact ⟨row, by omega, h3⟩

/-! ### Results and flags -/

theorem addByte_toNat (a b : Byte) : (addByte a b).toNat = (a.toNat + b.toNat) % 256 := by simp [addByte]

theorem subByte_toNat (a b : Byte) : ((subByte a b).toNat : Int) = (a.toNat - b.toNat : Int) % 256 := by
  simp [subByte]
  omega

theorem flagByte_carryOf (a b : Byte) : flagByte (carryOf a b) = if 255 < a.toNat + b.toNat then 1 else 0 := by
  unfold flagByte carryOf
  by_cases h : 255 < a.toNat + b.toNat <;> simp [h]

theorem flagByte_notBorrowOf (a b : Byte) : flagByte (notBorrowOf a b) = if b.toNat > a.toNat then 0 else 1 := by
  unfold flagByte notBorrowOf
  by_cases h : a.toNat < b.toNat <;> simp [h]

theorem shiftRight_toNat (a : Byte) : (shiftRight a).toNat = a.toNat / 2 := by
  simp [shiftRight]
  omega

theorem shiftedOutRight_toNat (a : Byte) : (shiftedOutRight a).toNat = a.toNat % 2 := by
  simp [shiftedOutRight]

theorem shiftLeft_toNat (a : Byte) : (shiftLeft a).toNat = a.toNat * 2 % 256 := by simp [shiftLeft]

theorem shiftedOutLeft_toNat (a : Byte) : (shiftedOutLeft a).toNat = a.toNat / 128 := by
  simp [shiftedOutLeft]
  omega

/-! ### The host's memory -/

theorem Memory.lookup_of_not_listed {m : Memory} {a : Nat} (h : ∀ c ∈ m, c.1 ≠ a) : m.lookup a = none := by
  induction m with
  | nil => rfl
  | cons c rest ih =>
    obtain ⟨b, v⟩ := c
    rw [Memory.lookup, if_neg fun e => h _ List.mem_cons_self e.symm]
    exact ih fun c hc => h c (List.mem_cons_of_mem _ hc)

theorem Memory.lookup_map (f : Nat → Byte) (l : List Nat) (a : Nat) :
    Memory.lookup (l.map fun a => (a, f a)) a = if a ∈ l then some (f a) else none := by
  induction l with
  | nil => rfl
  | cons b l ih =>
    simp only [List.map_cons, Memory.lookup, ih]
    by_cases h : a = b <;> simp [h]

/-- What the memory of a start reads as (R270): `INIT_MEM` above the font. -/
theorem initialCells_peek (f : Nat → Byte) (a : Nat) :
    (initialCells f).peek a = if 80 ≤ a ∧ a < 4096 then f a else Memory.unlisted a := by
  rw [Memory.peek, initialCells, Memory.lookup_map]
  by_cases h1 : 80 ≤ a ∧ a < 4096 <;> by_cases h2 : f a = Memory.unlisted a <;> simp [h1, h2]

/-- The memory of a start is in canonical form, and lists no byte of the font. -/
theorem initialCells_wf (f : Nat → Byte) : (initialCells f).wf ∧ ∀ c ∈ initialCells f, 80 ≤ c.1 := by
  have hmem : ∀ c ∈ initialCells f, 80 ≤ c.1 ∧ c.1 < 4096 ∧ c.2 ≠ Memory.unlisted c.1 := by
    intro c hc
    simp only [initialCells, List.mem_map, List.mem_filter, List.mem_range'_1] at hc
    obtain ⟨a, ⟨⟨h1, h2⟩, h3⟩, rfl⟩ := hc
    exact ⟨h1, by simp at h2; show a < 4096; omega, by simpa using h3⟩
  refine ⟨⟨?_, fun c hc => (hmem c hc).2⟩, fun c hc => (hmem c hc).1⟩
  rw [initialCells, List.map_map, show Prod.fst ∘ (fun a => (a, f a)) = id from rfl, List.map_id]
  exact (List.pairwise_lt_range' (s := _) (n := _)).sublist List.filter_sublist

end Sys2Proof.Machine
end

