-- ==== Sys2Proof/Laws/PerInstr.lean ====
section
/-! SUPPORT. Statements about every instruction as syntax, one lemma a constructor. `EncodesInRow`: the word the encoder gives
an instruction matches the instruction's own row of the opcode map (spec/30_encoding.md R98). -/

namespace Sys2Proof.Laws.EncodesInRow

/-- The instruction's word matches its row of R98. -/
def Statement (i : Instr) : Prop := ∃ row, opcodeRows[i.row]? = some row ∧ row.Matches (encode i)

theorem nnn_masked (base : Word) (nnn : Addr) : formatNnn base nnn &&& 0xF000 = base &&& 0xF000 := by
  ext k hk
  interval_cases k <;> simp [formatNnn]

theorem xnn_masked (base : Word) (x : Reg) (nn : Byte) : formatXnn base x nn &&& 0xF000 = base &&& 0xF000 := by
  ext k hk
  interval_cases k <;> simp [formatXnn, regBits]

theorem xs_masked (base : Word) (x : Reg) (nn : Byte) :
    formatXnn base x nn &&& 0xF0FF = (base ||| nn.setWidth 16) &&& 0xF0FF := by
  ext k hk
  interval_cases k <;> simp [formatXnn, regBits]

theorem xyn_masked (base : Word) (x y : Reg) (n : Nibble) :
    formatXyn base x y n &&& 0xF000 = base &&& 0xF000 := by
  ext k hk
  interval_cases k <;> simp [formatXyn, regBits]

theorem xys_masked (base : Word) (x y : Reg) (n : Nibble) :
    formatXyn base x y n &&& 0xF00F = (base ||| n.setWidth 16) &&& 0xF00F := by
  ext k hk
  interval_cases k <;> simp [formatXyn, regBits]

theorem cls : Statement (.cls) :=
  ⟨_, rfl, rfl⟩

theorem ret : Statement (.ret) :=
  ⟨_, rfl, rfl⟩

theorem sys (nnn : Addr) : Statement (.sys nnn) :=
  ⟨_, rfl, nnn_masked _ _⟩

theorem jp (nnn : Addr) : Statement (.jp nnn) :=
  ⟨_, rfl, nnn_masked _ _⟩

theorem call (nnn : Addr) : Statement (.call nnn) :=
  ⟨_, rfl, nnn_masked _ _⟩

theorem seVxNn (x : Reg) (nn : Byte) : Statement (.seVxNn x nn) :=
  ⟨_, rfl, xnn_masked _ _ _⟩

theorem sneVxNn (x : Reg) (nn : Byte) : Statement (.sneVxNn x nn) :=
  ⟨_, rfl, xnn_masked _ _ _⟩

theorem seVxVy (x y : Reg) : Statement (.seVxVy x y) :=
  ⟨_, rfl, xys_masked _ _ _ _⟩

theorem ldVxNn (x : Reg) (nn : Byte) : Statement (.ldVxNn x nn) :=
  ⟨_, rfl, xnn_masked _ _ _⟩

theorem addVxNn (x : Reg) (nn : Byte) : Statement (.addVxNn x nn) :=
  ⟨_, rfl, xnn_masked _ _ _⟩

theorem ldVxVy (x y : Reg) : Statement (.ldVxVy x y) :=
  ⟨_, rfl, xys_masked _ _ _ _⟩

theorem orVxVy (x y : Reg) : Statement (.orVxVy x y) :=
  ⟨_, rfl, xys_masked _ _ _ _⟩

theorem andVxVy (x y : Reg) : Statement (.andVxVy x y) :=
  ⟨_, rfl, xys_masked _ _ _ _⟩

theorem xorVxVy (x y : Reg) : Statement (.xorVxVy x y) :=
  ⟨_, rfl, xys_masked _ _ _ _⟩

theorem addVxVy (x y : Reg) : Statement (.addVxVy x y) :=
  ⟨_, rfl, xys_masked _ _ _ _⟩

theorem subVxVy (x y : Reg) : Statement (.subVxVy x y) :=
  ⟨_, rfl, xys_masked _ _ _ _⟩

theorem shrVxVy (x y : Reg) : Statement (.shrVxVy x y) :=
  ⟨_, rfl, xys_masked _ _ _ _⟩

theorem subnVxVy (x y : Reg) : Statement (.subnVxVy x y) :=
  ⟨_, rfl, xys_masked _ _ _ _⟩

theorem shlVxVy (x y : Reg) : Statement (.shlVxVy x y) :=
  ⟨_, rfl, xys_masked _ _ _ _⟩

theorem sneVxVy (x y : Reg) : Statement (.sneVxVy x y) :=
  ⟨_, rfl, xys_masked _ _ _ _⟩

theorem ldINnn (nnn : Addr) : Statement (.ldINnn nnn) :=
  ⟨_, rfl, nnn_masked _ _⟩

theorem jpV0Nnn (nnn : Addr) : Statement (.jpV0Nnn nnn) :=
  ⟨_, rfl, nnn_masked _ _⟩

theorem rndVxNn (x : Reg) (nn : Byte) : Statement (.rndVxNn x nn) :=
  ⟨_, rfl, xnn_masked _ _ _⟩

theorem drwVxVyN (x y : Reg) (n : Nibble) : Statement (.drwVxVyN x y n) :=
  ⟨_, rfl, xyn_masked _ _ _ _⟩

theorem skpVx (x : Reg) : Statement (.skpVx x) :=
  ⟨_, rfl, xs_masked _ _ _⟩

theorem sknpVx (x : Reg) : Statement (.sknpVx x) :=
  ⟨_, rfl, xs_masked _ _ _⟩

theorem ldVxDt (x : Reg) : Statement (.ldVxDt x) :=
  ⟨_, rfl, xs_masked _ _ _⟩

theorem ldVxK (x : Reg) : Statement (.ldVxK x) :=
  ⟨_, rfl, xs_masked _ _ _⟩

theorem ldDtVx (x : Reg) : Statement (.ldDtVx x) :=
  ⟨_, rfl, xs_masked _ _ _⟩

theorem ldStVx (x : Reg) : Statement (.ldStVx x) :=
  ⟨_, rfl, xs_masked _ _ _⟩

theorem addIVx (x : Reg) : Statement (.addIVx x) :=
  ⟨_, rfl, xs_masked _ _ _⟩

theorem ldFVx (x : Reg) : Statement (.ldFVx x) :=
  ⟨_, rfl, xs_masked _ _ _⟩

theorem ldBVx (x : Reg) : Statement (.ldBVx x) :=
  ⟨_, rfl, xs_masked _ _ _⟩

theorem ldMemVx (x : Reg) : Statement (.ldMemVx x) :=
  ⟨_, rfl, xs_masked _ _ _⟩

theorem ldVxMem (x : Reg) : Statement (.ldVxMem x) :=
  ⟨_, rfl, xs_masked _ _ _⟩

end Sys2Proof.Laws.EncodesInRow
end

