-- ==== Sys2Proof/Tests/Slice0.lean ====
section
/-! SUPPORT. The model's own tests. The expected values are those of spec/95_test_vectors.md (each test names its vector) or
of the example in the instruction's rule. Then, for every statement with hypotheses, witnesses that meet them, at the
boundary values of each clause. -/

namespace Sys2Proof.Tests

open Sys2Proof.Machine

/-! ### Well-formedness -/

theorem test_wf_refuses_sys_0E0 : ¬ (Instr.sys 0x0E0).WellFormed := by decide

theorem test_wf_refuses_sys_0EE : ¬ (Instr.sys 0x0EE).WellFormed := by decide

theorem test_wf_admits_neighbours : (Instr.sys 0x1E0).WellFormed ∧ (Instr.sys 0x0E1).WellFormed := by decide

/-! ### Decoding: one word per constructor, written out from the patterns of R98 -/

theorem test_decode_groups_0_to_7 :
    decode 0x00E0 = .ok .cls ∧ decode 0x00EE = .ok .ret ∧ decode 0x0FEE = .ok (.sys 0xFEE) ∧
    decode 0x1ABC = .ok (.jp 0xABC) ∧ decode 0x2DEF = .ok (.call 0xDEF) ∧ decode 0x3A42 = .ok (.seVxNn 0xA 0x42) ∧
    decode 0x4B17 = .ok (.sneVxNn 0xB 0x17) ∧ decode 0x5CD0 = .ok (.seVxVy 0xC 0xD) ∧
    decode 0x6A9C = .ok (.ldVxNn 0xA 0x9C) ∧ decode 0x7E81 = .ok (.addVxNn 0xE 0x81) := ⟨rfl, rfl, rfl, rfl, rfl, rfl, rfl, rfl, rfl, rfl⟩

theorem test_decode_group_8 :
    decode 0x8120 = .ok (.ldVxVy 1 2) ∧ decode 0x8341 = .ok (.orVxVy 3 4) ∧ decode 0x8562 = .ok (.andVxVy 5 6) ∧
    decode 0x8783 = .ok (.xorVxVy 7 8) ∧ decode 0x89A4 = .ok (.addVxVy 9 0xA) ∧ decode 0x8BC5 = .ok (.subVxVy 0xB 0xC) ∧
    decode 0x8DE6 = .ok (.shrVxVy 0xD 0xE) ∧ decode 0x8F07 = .ok (.subnVxVy 0xF 0) ∧ decode 0x812E = .ok (.shlVxVy 1 2) :=
  ⟨rfl, rfl, rfl, rfl, rfl, rfl, rfl, rfl, rfl⟩

theorem test_decode_groups_9_to_E :
    decode 0x9340 = .ok (.sneVxVy 3 4) ∧ decode 0xA123 = .ok (.ldINnn 0x123) ∧ decode 0xBFFE = .ok (.jpV0Nnn 0xFFE) ∧
    decode 0xC30F = .ok (.rndVxNn 3 0x0F) ∧ decode 0xD12F = .ok (.drwVxVyN 1 2 0xF) ∧ decode 0xE59E = .ok (.skpVx 5) ∧
    decode 0xE6A1 = .ok (.sknpVx 6) := ⟨rfl, rfl, rfl, rfl, rfl, rfl, rfl⟩

theorem test_decode_group_F :
    decode 0xF107 = .ok (.ldVxDt 1) ∧ decode 0xF20A = .ok (.ldVxK 2) ∧ decode 0xF315 = .ok (.ldDtVx 3) ∧
    decode 0xF418 = .ok (.ldStVx 4) ∧ decode 0xF51E = .ok (.addIVx 5) ∧ decode 0xF629 = .ok (.ldFVx 6) ∧
    decode 0xF733 = .ok (.ldBVx 7) ∧ decode 0xF855 = .ok (.ldMemVx 8) ∧ decode 0xF965 = .ok (.ldVxMem 9) :=
  ⟨rfl, rfl, rfl, rfl, rfl, rfl, rfl, rfl, rfl⟩

/-- S9 to S14 and W9. -/
theorem test_decode_refuses :
    decode 0x800F = .error (.illegalWord 0x800F) ∧ decode 0x8008 = .error (.illegalWord 0x8008) ∧
    decode 0xE19F = .error (.illegalWord 0xE19F) ∧ decode 0xF000 = .error (.illegalWord 0xF000) ∧
    decode 0xFFFF = .error (.illegalWord 0xFFFF) ∧ decode 0x9121 = .error (.illegalWord 0x9121) ∧
    decode 0x5121 = .error (.illegalWord 0x5121) ∧ decodeBytes [0x12] = .error .truncated :=
  ⟨rfl, rfl, rfl, rfl, rfl, rfl, rfl, rfl⟩

theorem test_encode_formats :
    encode .ret = 0x00EE ∧ encode (.call 0xDEF) = 0x2DEF ∧ encode (.ldVxNn 0xA 0x9C) = 0x6A9C ∧
    encode (.shlVxVy 1 2) = 0x812E ∧ encode (.drwVxVyN 1 2 0xF) = 0xD12F ∧ encode (.ldVxMem 9) = 0xF965 ∧
    encodeBytes (.jp 0x234) = [0x12, 0x34] := by decide

theorem test_decodeTableWord : decodeTableWord 16 0xD121 = some (.drwVxVyN 1 2 1) ∧ decodeTableWord 16 0x5121 = none := by
  decide

/-! ### States and answers -/

/-- The reset state with a clear framebuffer. -/
def blank : State := { State.reset with fb := Framebuffer.clear }

/-- One step that fetches and runs the word `w`. -/
def run (w : Nat) (s : State) : Result := step (s.withFetchWord 16 w)

/-- What a test looks at in the next state, if there is one. -/
def after {α : Type} (r : Result) (look : State → α) : Option α :=
  match r with
  | .next t => some (look t)
  | _ => none

/-- The fault, if there is one. -/
def faultOf (r : Result) : Option Fault :=
  match r with
  | .fault f => some f
  | _ => none

/-- `s` with a byte at `a`. -/
def withByte (a : Nat) (b : Byte) (s : State) : State := s.setMem (s.mem.poke a b)

/-- `s` with key `k` pressed. -/
def withKey (k : Fin 16) (s : State) : State := { s with keys := s.keys.set k true }

/-- `s` with `n` return addresses held, each 0x202. -/
def withDepth (n : Fin 17) (s : State) : State := { s with sp := n, stack := Vector.replicate 16 0x202 }

/-- `s` with one cell set. -/
def withCell (c : Fin 64) (r : Fin 32) (s : State) : State := s.setFb (s.fb.flip c r)

/-! ### The step -/

/-- S2. -/
theorem test_step_last_word :
    after (run 0x6A01 (blank.setPc 0xFFE)) (fun t => (t.reg 0xA, t.pc)) = some (1, 0x1000) := by decide

/-- S3, S4. -/
theorem test_fetch_faults :
    faultOf (step (blank.setPc 0x1000)) = some (.addressOutOfRange 0x1000 .fetch .beyondSpace 0x1000) ∧
    faultOf (step (blank.setPc 0xFFF)) = some (.addressOutOfRange 0x1000 .fetch .beyondSpace 0xFFF) := by decide

/-- W9. -/
theorem test_decode_failure :
    after (run 0x5121 (((blank.setReg 1 1).setI 0x300).setDt 3)) (fun t => (t.pc, t.reg 1, t.i, t.dt, t.report)) =
      some (0x202, 1, 0x300, 2, .decodeFailure 0x5121 0x200) := by decide

/-- W9, S4, F3, F5, T5 and S2: the codes of R234, one cause each, and none for a step that completes. -/
theorem test_cause_codes :
    [causeCode (run 0x5121 blank), causeCode (step (blank.setPc 0xFFF)), causeCode (run 0x2400 (withDepth 16 blank)),
      causeCode (run 0x00EE blank), causeCode (run 0xE09E (blank.setReg 0 0x10)), causeCode (run 0x6A01 blank)] =
      [some 1, some 2, some 3, some 4, some 5, none] := by decide

/-- T19, W8: only the sound timer raises a flag. -/
theorem test_tick :
    after (run 0x6000 (blank.setDt 1)) (fun t => (t.dt, t.soundFlag)) = some (0, false) ∧
    after (run 0x6000 (blank.setSt 1)) (fun t => (t.st, t.soundFlag)) = some (0, true) := by decide

/-! ### Display -/

/-- W3. -/
theorem test_cls :
    after (run 0x00E0 (withCell 63 31 blank)) (fun t => (t.fb.cell 63 31, t.redrawFlag, t.pc)) =
      some (false, true, 0x202) := by decide

/-- G1: the sprite wraps past column 63. -/
theorem test_drw_wraps :
    after (run 0xD121 ((withByte 0x300 0xFF (blank.setI 0x300)).setReg 1 62))
      (fun t => ([t.fb.cell 61 0, t.fb.cell 62 0, t.fb.cell 63 0, t.fb.cell 0 0, t.fb.cell 5 0, t.fb.cell 6 0], t.reg 15)) =
      some ([false, true, true, true, true, false], 0) := by decide

/-- G7 and a collision: the column is the old `VF`, and `VF` ends as the collision flag. -/
theorem test_drw_column_is_old_vf :
    after (run 0xDF21 (withCell 3 0 ((withByte 0x300 0x80 (blank.setI 0x300)).setReg 15 3)))
      (fun t => (t.fb.cell 3 0, t.reg 15, t.redrawFlag)) = some (false, 1, true) := by decide

/-! ### Control flow -/

/-- W5, second step, and F5. -/
theorem test_ret :
    after (run 0x00EE ({ (blank.setPc 0x210) with sp := 1, stack := blank.stack.set 0 0x206 })) (fun t => (t.pc, t.sp)) =
      some (0x206, 0) ∧
    faultOf (run 0x00EE blank) = some (.stackUnderflow 0x200 0) := by decide

/-- S8, F4. -/
theorem test_sys_calls :
    after (run 0x01E0 blank) (fun t => (t.pc, t.sp, t.stack[0])) = some (0x1E0, 1, 0x202) ∧
    faultOf (run 0x0400 (withDepth 16 (blank.setPc 0x300))) = some (.stackOverflow 0x300 16) := by decide

/-- S1. -/
theorem test_jp : after (run 0x1234 blank) (fun t => (t.pc, t.sp)) = some (0x234, 0) := by decide

/-- F2, F3. -/
theorem test_call :
    after (run 0x2300 (withDepth 15 blank)) (fun t => (t.stack[15], t.sp, t.pc)) = some (0x202, 16, 0x300) ∧
    faultOf (run 0x2400 (withDepth 16 (blank.setPc 0x300))) = some (.stackOverflow 0x300 16) := by decide

/-- F11, F12. -/
theorem test_se_nn :
    after (run 0x3342 ((blank.setPc 0x300).setReg 3 0x42)) State.pc = some 0x304 ∧
    after (run 0x3342 ((blank.setPc 0x300).setReg 3 0x41)) State.pc = some 0x302 := by decide

/-- F13, F14. -/
theorem test_sne_nn :
    after (run 0x4342 ((blank.setPc 0x300).setReg 3 0x41)) State.pc = some 0x304 ∧
    after (run 0x4342 ((blank.setPc 0x300).setReg 3 0x42)) State.pc = some 0x302 := by decide

/-- F15, F16. -/
theorem test_se_vy :
    after (run 0x5110 (blank.setReg 1 9)) State.pc = some 0x204 ∧
    after (run 0x5120 ((blank.setReg 1 1).setReg 2 2)) State.pc = some 0x202 := by decide

/-- F17, F18. -/
theorem test_sne_vy :
    after (run 0x9120 ((blank.setReg 1 1).setReg 2 2)) State.pc = some 0x204 ∧
    after (run 0x9120 ((blank.setReg 1 2).setReg 2 2)) State.pc = some 0x202 := by decide

/-- F8: no reduction to 12 bits. -/
theorem test_jp_v0 : after (run 0xBFFF (blank.setReg 0 0xFF)) State.pc = some 0x10FE := by decide

/-! ### Registers and arithmetic -/

/-- A1. -/
theorem test_ld_nn : after (run 0x6A9C blank) (fun t => (t.reg 0xA, t.pc)) = some (0x9C, 0x202) := by decide

/-- A2: no carry. -/
theorem test_add_nn :
    after (run 0x7002 ((blank.setReg 0 0xFF).setReg 15 0x55)) (fun t => (t.reg 0, t.reg 15)) = some (0x01, 0x55) := by decide

/-- A4. -/
theorem test_ld_vy :
    after (run 0x8120 (blank.setReg 2 0x33)) (fun t => (t.reg 1, t.reg 2)) = some (0x33, 0x33) := by decide

/-- A5. -/
theorem test_or :
    after (run 0x8121 (((blank.setReg 1 0x0F).setReg 2 0xF0).setReg 15 0x77)) (fun t => (t.reg 1, t.reg 15)) =
      some (0xFF, 0x77) := by decide

/-- A6: the result is in `Vx`. -/
theorem test_and :
    after (run 0x8122 ((blank.setReg 1 0x3C).setReg 2 0x0F)) (fun t => (t.reg 1, t.reg 2)) = some (0x0C, 0x0F) := by decide

/-- The example of R165. -/
theorem test_xor :
    after (run 0x8123 ((blank.setReg 1 0xFF).setReg 2 0x0F)) (fun t => (t.reg 1, t.reg 2)) = some (0xF0, 0x0F) := by decide

/-- W1, A11. -/
theorem test_add_vy :
    after (run 0x8014 ((blank.setReg 0 0xFF).setReg 1 0x02)) (fun t => (t.reg 0, t.reg 15)) = some (0x01, 1) ∧
    after (run 0x8F24 ((blank.setReg 15 0xFF).setReg 2 0x01)) (fun t => t.reg 15) = some 1 := by decide

/-- W2, A15. -/
theorem test_sub :
    after (run 0x8125 ((blank.setReg 1 1).setReg 2 2)) (fun t => (t.reg 1, t.reg 15)) = some (0xFF, 0) ∧
    after (run 0x8125 ((blank.setReg 1 7).setReg 2 7)) (fun t => (t.reg 1, t.reg 15)) = some (0, 1) := by decide

/-- A17, A19: `y` is ignored, and with `x = 15` the shift reads the flag. -/
theorem test_shr :
    after (run 0x8126 ((blank.setReg 1 0x05).setReg 2 0x80)) (fun t => (t.reg 1, t.reg 15, t.reg 2)) = some (0x02, 1, 0x80) ∧
    after (run 0x8F06 (blank.setReg 15 0x03)) (fun t => t.reg 15) = some 0 := by decide

/-- A20, A21. -/
theorem test_subn :
    after (run 0x8127 ((blank.setReg 1 3).setReg 2 5)) (fun t => (t.reg 1, t.reg 15)) = some (2, 1) ∧
    after (run 0x8127 ((blank.setReg 1 5).setReg 2 3)) (fun t => (t.reg 1, t.reg 15)) = some (0xFE, 0) := by decide

/-- A23, A25. -/
theorem test_shl :
    after (run 0x810E (blank.setReg 1 0x81)) (fun t => (t.reg 1, t.reg 15)) = some (0x02, 1) ∧
    after (run 0x8F0E (blank.setReg 15 0x80)) (fun t => t.reg 15) = some 2 := by decide

/-- A27: the mask 0 leaves 0 whatever the byte drawn. -/
theorem test_rnd : after (exec (.rndVxNn 0 0) (blank.setReg 0 9)) (fun t => (t.reg 0, t.draws)) = some (0, 1) := by
  show some (Config.drawByte 0 &&& 0, 1) = some ((0 : Byte), 1)
  rw [show Config.drawByte 0 &&& 0 = 0 from BitVec.and_zero]

/-! ### The index register and memory -/

/-- M1. -/
theorem test_ld_i : after (run 0xA123 blank) State.i = some 0x123 := by decide

/-- M3, M4. -/
theorem test_add_i :
    after (run 0xF01E ((blank.setI 0xFFF).setReg 0 1)) State.i = some 0x1000 ∧
    after (run 0xF01E ((blank.setI 0xFFFF).setReg 0 2)) State.i = some 0x0001 := by decide

/-- M5, M7. -/
theorem test_ld_f :
    after (run 0xF029 (blank.setReg 0 0x0A)) State.i = some 0x032 ∧
    after (run 0xF029 (blank.setReg 0 0xFF)) State.i = some 0x4FB := by decide

/-- W7, M10. -/
theorem test_ld_b :
    after (run 0xF533 ((blank.setI 0x300).setReg 5 156))
      (fun t => ([t.mem.peek 0x300, t.mem.peek 0x301, t.mem.peek 0x302], t.i)) = some ([1, 5, 6], 0x300) ∧
    faultOf (run 0xF033 ((blank.setI 0x1FF).setReg 0 7)) =
      some (.addressOutOfRange 0x1FF .write .belowProgramBoundary 0x200) := by decide

/-- W6, first step, and M15. -/
theorem test_ld_mem :
    after (run 0xF255 ((((blank.setI 0x300).setReg 0 0x11).setReg 1 0x22).setReg 2 0x33))
      (fun t => ([t.mem.peek 0x300, t.mem.peek 0x301, t.mem.peek 0x302, t.mem.peek 0x303], t.i)) =
      some ([0x11, 0x22, 0x33, 0x00], 0x303) ∧
    faultOf (run 0xF355 (blank.setI 0xFFD)) = some (.addressOutOfRange 0x1000 .write .beyondSpace 0x200) := by decide

/-- M16, M18. -/
theorem test_ld_vx_mem :
    after (run 0xF165 (withByte 0x301 0x05 (withByte 0x300 0x01 ((blank.setI 0x300).setReg 2 9))))
      (fun t => ([t.reg 0, t.reg 1, t.reg 2], t.i)) = some ([1, 5, 9], 0x302) ∧
    faultOf (run 0xF165 (blank.setI 0xFFF)) = some (.addressOutOfRange 0x1000 .read .beyondSpace 0x200) := by decide

/-! ### Timers and keys -/

/-- T1, T5. -/
theorem test_skp :
    after (run 0xE09E ((withKey 5 blank).setReg 0 5)) State.pc = some 0x204 ∧
    faultOf (run 0xE09E (blank.setReg 0 0x10)) = some (.keyIndexOutOfRange 0x200 0x10) := by decide

/-- T3, T4. -/
theorem test_sknp :
    after (run 0xE0A1 (blank.setReg 0 5)) State.pc = some 0x204 ∧
    after (run 0xE0A1 ((withKey 5 blank).setReg 0 5)) State.pc = some 0x202 := by decide

/-- T11. -/
theorem test_ld_vx_dt : after (run 0xF107 (blank.setDt 2)) (fun t => (t.reg 1, t.dt)) = some (2, 1) := by decide

/-- T7. -/
theorem test_ld_k_holds :
    after (run 0xF30A ((blank.setDt 5).setSt 5)) (fun t => (t.pc, t.dt, t.st, t.reg 3, t.report)) =
      some (0x200, 5, 5, 0, .held) := by decide

/-- T8: with one key pressed there is no choice. -/
theorem test_ld_k_loads :
    after (exec (.ldVxK 3) ((withKey 7 blank).setDt 5)) (fun t => (t.reg 3, t.pc, t.dt)) = some (7, 0x202, 4) := by
  have h : chooseKey (advance ((withKey 7 blank).setDt 5)) =
      (7, { advance ((withKey 7 blank).setDt 5) with draws := 1 }) := by
    have hp : pressedKeys (advance ((withKey 7 blank).setDt 5)) = [7] := by decide
    rw [chooseKey, hp, List.length_singleton, Nat.mod_one]
    rfl
  have hn : noKeyPressed ((withKey 7 blank).setDt 5) = false := by decide
  simp only [exec, execLdVxK, hn, complete, h]
  decide

/-- T13. -/
theorem test_ld_dt : after (run 0xF015 (blank.setReg 0 3)) State.dt = some 2 := by decide

/-- T16, T17. -/
theorem test_ld_st :
    after (run 0xF018 (blank.setReg 0 1)) (fun t => (t.st, t.soundFlag)) = some (0, true) ∧
    after (run 0xF018 (blank.setSt 5)) (fun t => (t.st, t.soundFlag)) = some (0, false) := by decide

/-! ### The host -/

theorem test_load :
    after (hostAct (.load [0x12, 0x34] 0xFFE) blank) (fun t => [t.mem.peek 0xFFE, t.mem.peek 0xFFF]) =
      some [0x12, 0x34] ∧
    (hostAct (.load [0x12, 0x34] 0xFFF) blank matches .refused (.loadOutsideDuty 0xFFF 2)) = true ∧
    (hostAct (.load [0x12] 0x1FF) blank matches .refused (.loadOutsideDuty 0x1FF 1)) = true := by decide

/-- R251: a start keeps the keys and gives the entry point. -/
theorem test_start :
    after (hostAct (.start (fun _ => 7) (fun _ _ => true)) (withKey 4 (blank.setI 9)))
      (fun t => (t.pc, t.i, t.keys[4], t.redrawFlag)) = some (0x200, 0, true, false) := by decide

/-! ### Witnesses: encoding -/

/-- `DecodeInvertsEncode`. -/
theorem witness_DecodeInvertsEncode :
    (Instr.sys 0xFFF).WellFormed ∧ (Instr.drwVxVyN 15 15 15).WellFormed ∧ (Instr.ldVxNn 15 255).WellFormed := by decide

/-- `EncodeInvertsDecode`, at words with every field at its greatest and with an unused `y`. -/
theorem witness_EncodeInvertsDecode :
    decode 0xDFFF = .ok (.drwVxVyN 15 15 15) ∧ decode 0x8FF6 = .ok (.shrVxVy 15 15) ∧ decode 0x0FFF = .ok (.sys 0xFFF) :=
  ⟨rfl, rfl, rfl⟩

/-- `DecodeFollowsOpcodeMap`: a decoded word; a matched row that is not the third; the third, matched by a word that is not
one of the first two. -/
theorem witness_DecodeFollowsOpcodeMap :
    decode 0xFF65 = .ok (.ldVxMem 15) ∧
    (∃ row, opcodeRows[34]? = some row ∧ row.Matches 0xFF65) ∧
    (∃ row, opcodeRows[2]? = some row ∧ row.Matches 0x01E0) ∧ (0x01E0 : Word) ≠ 0x00E0 ∧ (0x01E0 : Word) ≠ 0x00EE :=
  ⟨rfl, ⟨_, rfl, by decide⟩, ⟨_, rfl, by decide⟩, by decide, by decide⟩

/-- `IllegalWordsAreTheListedOnes`: a word of each of the five families is illegal. -/
theorem witness_IllegalWordsAreTheListedOnes :
    ∀ w ∈ [(0x5121 : Word), 0x8FFF, 0x9121, 0xE19F, 0xFFFF], decode w = .error (.illegalWord w) := by
  simp only [List.forall_mem_cons]
  exact ⟨rfl, rfl, rfl, rfl, rfl, by simp⟩

/-- `GroupsWithOneInstruction`: each of the ten premises, at the greatest operands. -/
theorem witness_GroupsWithOneInstruction :
    (0x1FFF : Word).toNat = 0x1000 + (0xFFF : Addr).toNat ∧ (0x2FFF : Word).toNat = 0x2000 + (0xFFF : Addr).toNat ∧
    (0x3FFF : Word).toNat = 0x3000 + (15 : Reg).val * 256 + (0xFF : Byte).toNat ∧
    (0x4FFF : Word).toNat = 0x4000 + (15 : Reg).val * 256 + (0xFF : Byte).toNat ∧
    (0x6FFF : Word).toNat = 0x6000 + (15 : Reg).val * 256 + (0xFF : Byte).toNat ∧
    (0x7FFF : Word).toNat = 0x7000 + (15 : Reg).val * 256 + (0xFF : Byte).toNat ∧
    (0xAFFF : Word).toNat = 0xA000 + (0xFFF : Addr).toNat ∧ (0xBFFF : Word).toNat = 0xB000 + (0xFFF : Addr).toNat ∧
    (0xCFFF : Word).toNat = 0xC000 + (15 : Reg).val * 256 + (0xFF : Byte).toNat ∧
    (0xDFFF : Word).toNat = 0xD000 + (15 : Reg).val * 256 + (15 : Reg).val * 16 + (15 : Nibble).toNat := by decide

/-- `GroupEightDispatchesOnN`, at an instruction and at an illegal word. -/
theorem witness_GroupEightDispatchesOnN :
    (0x8FFE : Word).toNat = 0x8000 + (15 : Reg).val * 256 + (15 : Reg).val * 16 + (0xE : Nibble).toNat ∧
    (0x8FFF : Word).toNat = 0x8000 + (15 : Reg).val * 256 + (15 : Reg).val * 16 + (0xF : Nibble).toNat := by decide

/-- `GroupsEAndFDispatchOnNn`: both premises. -/
theorem witness_GroupsEAndFDispatchOnNn :
    (0xEFA1 : Word).toNat = 0xE000 + (15 : Reg).val * 256 + (0xA1 : Byte).toNat ∧
    (0xFFFF : Word).toNat = 0xF000 + (15 : Reg).val * 256 + (0xFF : Byte).toNat := by decide

/-! ### Witnesses: the step -/

/-- `blank` with `PC` at the last word of memory, which is `w`. -/
def atLastWord (hi lo : Byte) : State := withByte 0xFFF lo (withByte 0xFFE hi (blank.setPc 0xFFE))

/-- `StepRunsTheFetchedInstruction`: both clauses, at 0xFFE, 0xFFF and the first address past memory. -/
theorem witness_StepRunsTheFetchedInstruction :
    (∃ s : State, s.pc.toNat < 0xFFF ∧
      (0x6A01 : Word).toNat = (s.mem.peek s.pc.toNat).toNat * 256 + (s.mem.peek (s.pc.toNat + 1)).toNat ∧
      decode 0x6A01 = .ok (.ldVxNn 0xA 0x01)) ∧
    0xFFF ≤ (blank.setPc 0xFFF).pc.toNat ∧ 0xFFF ≤ (blank.setPc 0x1000).pc.toNat :=
  ⟨⟨atLastWord 0x6A 0x01, by decide, by decide, rfl⟩, by decide, by decide⟩

/-- `DecodeFailureChangesOnlyPcAndTimers`. -/
theorem witness_DecodeFailureChangesOnlyPcAndTimers :
    ∃ s : State, s.pc.toNat < 0xFFF ∧
      (0x5121 : Word).toNat = (s.mem.peek s.pc.toNat).toNat * 256 + (s.mem.peek (s.pc.toNat + 1)).toNat ∧
      decode 0x5121 = .error (.illegalWord 0x5121) :=
  ⟨atLastWord 0x51 0x21, by decide, by decide, rfl⟩

/-- `EveryStepHasAnOutcome`: each of the four occurs. -/
theorem witness_EveryStepHasAnOutcome :
    after (step (atLastWord 0x6A 0x01)) State.report = some .ok ∧
    after (step (atLastWord 0xF3 0x0A)) State.report = some .held ∧
    after (step (atLastWord 0x51 0x21)) State.report = some (.decodeFailure 0x5121 0xFFE) ∧
    (faultOf (step (blank.setPc 0xFFF))).isSome = true := by decide

/-- `InstructionsCompleteOrFaultAsListed`, first clause: at the last admitted value of each condition. -/
theorem witness_InstructionsCompleteOrFaultAsListed_completes :
    MayComplete (withDepth 15 blank) (.call 0) ∧ MayComplete (withDepth 15 blank) (.sys 0) ∧
    MayComplete (withDepth 1 blank) .ret ∧ MayComplete (blank.setI 0xFFF) (.drwVxVyN 0 0 1) ∧
    MayComplete (blank.setI 0xFFFF) (.drwVxVyN 0 0 0) ∧ MayComplete (blank.setI 0xFF0) (.ldVxMem 15) ∧
    MayComplete (blank.setI 0xFFD) (.ldBVx 0) ∧ MayComplete (blank.setI 0x200) (.ldBVx 0) ∧
    MayComplete (blank.setI 0xFF0) (.ldMemVx 15) ∧ MayComplete (blank.setReg 0 15) (.skpVx 0) ∧
    MayComplete (blank.setReg 0 15) (.sknpVx 0) ∧ MayComplete blank .cls := by
  simp only [MayComplete]
  decide

/-- The same, second clause: one past it. -/
theorem witness_InstructionsCompleteOrFaultAsListed_faults :
    ¬ MayComplete (withDepth 16 blank) (.call 0) ∧ ¬ MayComplete (withDepth 16 blank) (.sys 0) ∧
    ¬ MayComplete (withDepth 0 blank) .ret ∧ ¬ MayComplete (blank.setI 0xFFF) (.drwVxVyN 0 0 2) ∧
    ¬ MayComplete (blank.setI 0xFF1) (.ldVxMem 15) ∧ ¬ MayComplete (blank.setI 0xFFE) (.ldBVx 0) ∧
    ¬ MayComplete (blank.setI 0x1FF) (.ldBVx 0) ∧ ¬ MayComplete (blank.setI 0xFF1) (.ldMemVx 15) ∧
    ¬ MayComplete (blank.setReg 0 16) (.skpVx 0) ∧ ¬ MayComplete (blank.setReg 0 16) (.sknpVx 0) := by
  simp only [MayComplete]
  decide

/-! ### Witnesses: whole-machine rules -/

/-- `EveryInstructionKeepsItsFrame`: a form that stores, one that writes `VF` beside its destination, one that draws. -/
theorem witness_EveryInstructionKeepsItsFrame :
    (∃ t, exec (.ldMemVx 15) (blank.setI 0xFF0) = .next t) ∧ (∃ t, exec (.addVxVy 3 4) blank = .next t) ∧
    (∃ t, exec (.drwVxVyN 0 0 1) (blank.setI 0x300) = .next t) :=
  ⟨⟨_, rfl⟩, ⟨_, rfl⟩, ⟨_, rfl⟩⟩

/-- `EveryInstructionLeavesPcAsTabled`: a skip taken and one not, a return, and a held `FX0A`. -/
theorem witness_EveryInstructionLeavesPcAsTabled :
    (∃ t, exec (.seVxNn 0 0) blank = .next t ∧ t.pc = blank.pc + 4) ∧
    (∃ t, exec (.seVxNn 0 1) blank = .next t ∧ t.pc = blank.pc + 2) ∧
    (∃ t, exec .ret (withDepth 16 blank) = .next t) ∧ (∃ t, exec (.ldVxK 0) blank = .next t) :=
  ⟨⟨_, rfl, rfl⟩, ⟨_, rfl, rfl⟩, ⟨_, rfl⟩, ⟨_, rfl⟩⟩

/-- `EveryCompletedInstructionTicksOnce`. -/
theorem witness_EveryCompletedInstructionTicksOnce :
    ∃ t, exec (.ldStVx 0) (blank.setReg 0 1) = .next t ∧ t.report ≠ .held := ⟨_, rfl, by decide⟩

/-- `StepsNeverLowerTheFlags`: a step from a state with both flags raised. -/
theorem witness_StepsNeverLowerTheFlags :
    ∃ s t : State, s.redrawFlag = true ∧ s.soundFlag = true ∧ step s = .next t :=
  ⟨{ atLastWord 0x6A 0x01 with redrawFlag := true, soundFlag := true }, _, rfl, rfl, rfl⟩

/-- `StepsNeverWriteTheSystemRegion`: a step that stores at the boundary itself. -/
theorem witness_StepsNeverWriteTheSystemRegion :
    ∃ s t : State, step s = .next t ∧ t.mem.peek 0x200 = 0xAB :=
  ⟨((atLastWord 0xF0 0x55).setI 0x200).setReg 0 0xAB, _, rfl, by decide⟩

/-- `StepKeepsInvariant`: a state with the invariant, one return address held at its greatest value, and a step from it. -/
theorem witness_StepKeepsInvariant :
    ∃ s t : State, s.Inv ∧ s.sp.val = 1 ∧ s.stack[0] = 0x1000 ∧ step s = .next t :=
  ⟨{ atLastWord 0x00 0xEE with sp := 1, stack := blank.stack.set 0 0x1000 }, _, by unfold State.Inv; decide, rfl, rfl, rfl⟩

/-- `HostActionsKeepInvariant`. -/
theorem witness_HostActionsKeepInvariant :
    blank.Inv ∧ (∃ t, hostAct (.load [0xAB, 0xCD] 0xFFE) blank = .next t) ∧
    (∃ t, hostAct (.start (fun _ => 7) (fun _ _ => true)) blank = .next t) :=
  ⟨by unfold State.Inv; decide, ⟨_, rfl⟩, ⟨_, rfl⟩⟩

/-- `FontNeverChangesInASession`: a session that loads and steps. -/
theorem witness_FontNeverChangesInASession :
    ∃ s t : State, Session s ∧ hostAct (.load [0x60, 0x07] 0x200) State.reset = .next s ∧ step s = .next t ∧ Session t :=
  ⟨_, _, .host (.load [0x60, 0x07] 0x200) .reset rfl, rfl, rfl,
    .step (.host (.load [0x60, 0x07] 0x200) .reset rfl) rfl⟩

/-- `OutputsNeverInfluenceExecution`: a step that goes on and one that faults. -/
theorem witness_OutputsNeverInfluenceExecution :
    (∃ t, step (atLastWord 0xFF 0x18) = .next t) ∧ (∃ f, step (blank.setPc 0xFFF) = .fault f) :=
  ⟨⟨_, rfl⟩, ⟨_, rfl⟩⟩

/-- `StaleStackSlotsAreNeverRead`: two stacks that agree below `SP` and differ above; a step that goes on and one that
faults. -/
theorem witness_StaleStackSlotsAreNeverRead :
    (∀ k : Fin 16, k.val < (withDepth 1 blank).sp.val →
      ((withDepth 1 blank).stack.set 1 0x300)[k] = (withDepth 1 blank).stack[k]) ∧
    (withDepth 1 blank).stack.set 1 0x300 ≠ (withDepth 1 blank).stack ∧
    (∃ t, step (withDepth 1 (atLastWord 0x00 0xEE)) = .next t) ∧
    (∃ f, step (withDepth 0 (atLastWord 0x00 0xEE)) = .fault f) :=
  ⟨by decide, by decide, ⟨_, rfl⟩, ⟨_, rfl⟩⟩

/-! ### Witnesses: display -/

/-- A sprite row of one set pixel, at the last byte of memory. -/
def spriteAtEnd : State := withByte 0xFFF 0x80 (blank.setI 0xFFF)

/-- `DrwFlipsCoveredCells`: the premise at the last byte, and for no row at all wherever `I` is; a cell covered, a cell not. -/
theorem witness_DrwFlipsCoveredCells :
    ReadsInside spriteAtEnd 1 ∧ ReadsInside (blank.setI 0xFFFF) 0 ∧
    SpriteCovers spriteAtEnd 63 31 1 63 31 ∧ ¬ SpriteCovers spriteAtEnd 63 31 1 0 31 := by
  refine ⟨by decide, by decide, ⟨0, by decide, 0, by decide, by decide, by decide, by decide⟩, ?_⟩
  rintro ⟨row, hrow, col, hcol, hb, hc, -⟩
  obtain rfl : row = 0 := by omega
  have h : ∀ col < 8, (spriteAtEnd.mem.peek (spriteAtEnd.i.toNat + 0)).getLsbD (7 - col) = true → col = 0 := by decide
  obtain rfl := h col hcol hb
  simp at hc

/-- The same: the collision clause, at a cell that is set and covered. -/
theorem witness_DrwFlipsCoveredCells_collision :
    ∃ s : State, ReadsInside s 1 ∧ SpriteCovers s 63 31 1 63 31 ∧ s.fb.cell 63 31 = true :=
  ⟨withCell 63 31 spriteAtEnd, by decide, ⟨0, by decide, 0, by decide, by decide, by decide, by decide⟩, by decide⟩

/-- `DrwFaultsPastMemory`: one row too many, and `I` past the end. -/
theorem witness_DrwFaultsPastMemory :
    (2 : Nibble) ≠ 0 ∧ 4096 < (blank.setI 0xFFF).i.toNat + (2 : Nibble).toNat ∧
    4096 < (blank.setI 0x1000).i.toNat + (1 : Nibble).toNat := by decide

/-- `DrawingTwiceRestoresTheFramebuffer`. -/
theorem witness_DrawingTwiceRestoresTheFramebuffer :
    ∃ s t u : State, exec (.drwVxVyN 1 2 1) s = .next t ∧ u.fb = t.fb ∧ (∀ a, u.mem.peek a = s.mem.peek a) ∧
      u.i = s.i ∧ u.reg 1 = s.reg 1 ∧ u.reg 2 = s.reg 2 :=
  ⟨spriteAtEnd, _, _, rfl, rfl, fun _ => rfl, rfl, rfl, rfl⟩

/-! ### Witnesses: control flow -/

/-- `CallsPushTheReturnAddress`: with none held, with one place left, and with none left. -/
theorem witness_CallsPushTheReturnAddress :
    blank.sp.val = (0 : Fin 16).val ∧ (withDepth 15 blank).sp.val = (15 : Fin 16).val ∧ (withDepth 16 blank).sp.val = 16 := by
  decide

/-- `RetPopsTheReturnAddress`: with one held, with sixteen, and with none. -/
theorem witness_RetPopsTheReturnAddress :
    (withDepth 1 blank).sp.val = (0 : Fin 16).val + 1 ∧ (withDepth 16 blank).sp.val = (15 : Fin 16).val + 1 ∧
    blank.sp.val = 0 := by decide

/-- `ReturnUndoesCall`: the deepest call. -/
theorem witness_ReturnUndoesCall :
    ∃ s t u : State, exec (.call 0x300) s = .next t ∧ u.sp = t.sp ∧ u.stack = t.stack ∧ s.sp.val = 15 :=
  ⟨withDepth 15 blank, _, _, rfl, rfl, rfl, rfl⟩

/-- `SkipsOnImmediate` and `SkipsOnRegisters`: the condition holds and fails. -/
theorem witness_Skips :
    blank.reg 0 = 0 ∧ blank.reg 0 ≠ 1 ∧ blank.reg 0 = blank.reg 1 ∧ (blank.setReg 0 1).reg 0 ≠ (blank.setReg 0 1).reg 1 := by
  decide

/-! ### Witnesses: arithmetic -/

/-- `AddSetsCarry`, `SubtractionsSetNotBorrow`, `ShiftsSetShiftedOutBit`: a destination that is `VF` and one that is not;
the sum and the difference on either side of the flag; `VF` on either side of bit 7. -/
theorem witness_flag_clauses :
    (14 : Reg) ≠ 15 ∧ 255 < (0xFF : Byte).toNat + (1 : Byte).toNat ∧ ¬ 255 < (0xFF : Byte).toNat + (0 : Byte).toNat ∧
    (1 : Byte).toNat > (0 : Byte).toNat ∧ ¬ (1 : Byte).toNat > (1 : Byte).toNat ∧
    128 ≤ (0x80 : Byte).toNat ∧ ¬ 128 ≤ (0x7F : Byte).toNat := by decide

/-! ### Witnesses: memory -/

/-- `LdBStoresDecimalDigits`: both ends of the region, and one past each. -/
theorem witness_LdBStoresDecimalDigits :
    WritesInside (blank.setI 0x200) 3 ∧ WritesInside (blank.setI 0xFFD) 3 ∧ (blank.setI 0x1FF).i.toNat < 0x200 ∧
    4096 < (blank.setI 0xFFE).i.toNat + 3 := by decide

/-- `LdMemStoresRegisters`: the same, with all sixteen registers. -/
theorem witness_LdMemStoresRegisters :
    WritesInside (blank.setI 0x200) ((15 : Reg).val + 1) ∧ WritesInside (blank.setI 0xFF0) ((15 : Reg).val + 1) ∧
    (blank.setI 0x1FF).i.toNat < 0x200 ∧ 4096 < (blank.setI 0xFF1).i.toNat + (15 : Reg).val + 1 ∧
    (blank.setI 0x200).i.toNat + (0 : Reg).val + 1 ≤ 0x201 := by decide

/-- `LdVxMemLoadsRegisters`: from the font on, up to the last byte, and one past it. -/
theorem witness_LdVxMemLoadsRegisters :
    blank.i.toNat + (15 : Reg).val + 1 ≤ 4096 ∧ (blank.setI 0xFF0).i.toNat + (15 : Reg).val + 1 ≤ 4096 ∧
    4096 < (blank.setI 0xFF1).i.toNat + (15 : Reg).val + 1 := by decide

/-- `StoreThenLoadRestoresRegisters`: all sixteen registers, at the end of memory. -/
theorem witness_StoreThenLoadRestoresRegisters :
    ∃ s t u : State, exec (.ldMemVx 15) s = .next t ∧ (∀ a, u.mem.peek a = t.mem.peek a) ∧ u.i = s.i ∧ u.reg 3 ≠ s.reg 3 :=
  ⟨(blank.setI 0xFF0).setReg 3 7, _, (blank.setI 0xFF0).setMem (withByte 0xFF3 7 blank).mem, rfl, fun _ => rfl, rfl,
    by decide⟩

/-- `FetchSeesStoredBytes`: the last word of memory. -/
theorem witness_FetchSeesStoredBytes :
    ∃ s t u : State, exec (.ldMemVx 1) s = .next t ∧ (0 : Reg) < 1 ∧ (∀ a, u.mem.peek a = t.mem.peek a) ∧
      u.pc.toNat = s.i.toNat + (0 : Reg).val :=
  ⟨blank.setI 0xFFE, _, blank.setPc 0xFFE, rfl, by decide, fun _ => rfl, by decide⟩

/-! ### Witnesses: timers, keys and the host -/

/-- `DelayTimerReadsOneLess`, at the greatest value and at 0. -/
theorem witness_DelayTimerReadsOneLess :
    (∃ t u : State, exec (.ldDtVx 0) (blank.setReg 0 255) = .next t ∧ u.dt = t.dt) ∧
    (∃ t u : State, exec (.ldDtVx 0) blank = .next t ∧ u.dt = t.dt) :=
  ⟨⟨_, _, rfl, rfl⟩, ⟨_, _, rfl, rfl⟩⟩

/-- `KeySkipsTestTheKey`: the last key, and the first value that names none. -/
theorem witness_KeySkipsTestTheKey :
    ((blank.setReg 0 15).reg 0).toNat = (15 : Fin 16).val ∧ 15 < ((blank.setReg 0 16).reg 0).toNat := by decide

/-- `LdKWaitsForAKey`: some key, and none. -/
theorem witness_LdKWaitsForAKey :
    (∃ k : Fin 16, (withKey 15 blank).keys[k] = true) ∧ ∀ k : Fin 16, blank.keys[k] = false := by decide

/-- `SettingAKeyLiftsTheHold`. -/
theorem witness_SettingAKeyLiftsTheHold : ∃ t, exec (.ldVxK 3) blank = .next t ∧ t.report = .held := ⟨_, rfl, rfl⟩

/-- `LoadCopiesBytes`: both ends of the host's duty, a load of nothing at the end, and one past each end. -/
theorem witness_LoadCopiesBytes :
    (0x200 ≤ 0x200 ∧ 0x200 + [(0xAB : Byte)].length ≤ 4096) ∧ (0x200 ≤ 0xFFF ∧ 0xFFF + [(0xAB : Byte)].length ≤ 4096) ∧
    (0x200 ≤ 4096 ∧ 4096 + ([] : List Byte).length ≤ 4096) ∧
    ¬ (0x200 ≤ 0x1FF ∧ 0x1FF + [(0xAB : Byte)].length ≤ 4096) ∧
    ¬ (0x200 ≤ 4096 ∧ 4096 + [(0xAB : Byte)].length ≤ 4096) := by decide

/-- `HostSetsKeysAndClearsFlags`: another key. -/
theorem witness_HostSetsKeysAndClearsFlags : ∃ j : Fin 16, j ≠ 15 := ⟨0, by decide⟩

/-- `InitializeGivesTheResetState`: the ends of both memory clauses. -/
theorem witness_InitializeGivesTheResetState : 79 < 80 ∧ 80 ≤ 80 ∧ 80 ≤ 4095 ∧ 4095 < 4096 := by decide

end Sys2Proof.Tests
end

/-! The dispatch of the decoder over the word's number (spec/30_encoding.md R85 to R91). The fields of a word are read off its
number once for each operand format (R84); each group's dispatch is then the decoder's own branch at those fields. -/

namespace Sys2Proof

/-! ### The fields of a word in each format (R84) -/

/-- Format `NNN`. -/
theorem fields_of_toNat_nnn (g : Nat) {w : Word} {nnn : Addr} (h : w.toNat = g * 4096 + nnn.toNat) :
    fieldGroup w = g ∧ fieldNnn w = nnn := by
  have hnnn := nnn.isLt
  constructor
  · rw [fieldGroup_eq]
    omega
  · apply BitVec.eq_of_toNat_eq
    rw [fieldNnn_toNat]
    omega

/-- Formats `XNN` and `XS`. -/
theorem fields_of_toNat_xnn (g : Nat) {w : Word} {x : Reg} {nn : Byte}
    (h : w.toNat = g * 4096 + x.val * 256 + nn.toNat) :
    fieldGroup w = g ∧ fieldX w = x ∧ fieldNn w = nn := by
  have hx := x.isLt
  have hnn := nn.isLt
  refine ⟨?_, Fin.ext ?_, BitVec.eq_of_toNat_eq ?_⟩
  · rw [fieldGroup_eq]
    omega
  · rw [fieldX_val]
    omega
  · rw [fieldNn_toNat]
    omega

/-- Formats `XYN` and `XYS`. -/
theorem fields_of_toNat_xyn (g : Nat) {w : Word} {x y : Reg} {n : Nibble}
    (h : w.toNat = g * 4096 + x.val * 256 + y.val * 16 + n.toNat) :
    fieldGroup w = g ∧ fieldX w = x ∧ fieldY w = y ∧ fieldN w = n := by
  have hx := x.isLt
  have hy := y.isLt
  have hn := n.isLt
  refine ⟨?_, Fin.ext ?_, Fin.ext ?_, BitVec.eq_of_toNat_eq ?_⟩
  · rw [fieldGroup_eq]
    omega
  · rw [fieldX_val]
    omega
  · rw [fieldY_val]
    omega
  · rw [fieldN_toNat]
    omega

/-! ### The decoder's branch for a group (R85) -/

section

variable {w : Word}

theorem decode_of_group1 (h : fieldGroup w = 0x1) : decode w = .ok (.jp (fieldNnn w)) := by
  simp only [decode, h]

theorem decode_of_group2 (h : fieldGroup w = 0x2) : decode w = .ok (.call (fieldNnn w)) := by
  simp only [decode, h]

theorem decode_of_group3 (h : fieldGroup w = 0x3) : decode w = .ok (.seVxNn (fieldX w) (fieldNn w)) := by
  simp only [decode, h]

theorem decode_of_group4 (h : fieldGroup w = 0x4) : decode w = .ok (.sneVxNn (fieldX w) (fieldNn w)) := by
  simp only [decode, h]

theorem decode_of_group6 (h : fieldGroup w = 0x6) : decode w = .ok (.ldVxNn (fieldX w) (fieldNn w)) := by
  simp only [decode, h]

theorem decode_of_group7 (h : fieldGroup w = 0x7) : decode w = .ok (.addVxNn (fieldX w) (fieldNn w)) := by
  simp only [decode, h]

theorem decode_of_group8 (h : fieldGroup w = 0x8) : decode w = decodeGroup8 w := by simp only [decode, h]

theorem decode_of_groupA (h : fieldGroup w = 0xA) : decode w = .ok (.ldINnn (fieldNnn w)) := by
  simp only [decode, h]

theorem decode_of_groupB (h : fieldGroup w = 0xB) : decode w = .ok (.jpV0Nnn (fieldNnn w)) := by
  simp only [decode, h]

theorem decode_of_groupC (h : fieldGroup w = 0xC) : decode w = .ok (.rndVxNn (fieldX w) (fieldNn w)) := by
  simp only [decode, h]

theorem decode_of_groupD (h : fieldGroup w = 0xD) : decode w = .ok (.drwVxVyN (fieldX w) (fieldY w) (fieldN w)) := by
  simp only [decode, h]

theorem decode_of_groupE (h : fieldGroup w = 0xE) : decode w = decodeGroupE w := by simp only [decode, h]

theorem decode_of_groupF (h : fieldGroup w = 0xF) : decode w = decodeGroupF w := by simp only [decode, h]

end

/-! ### The dispatch of a group on its sub-operation (R87 to R89)

The decoder matches on the field as a number; here it is compared as a bit vector, as the rules list it. -/

theorem decodeGroup8_eq (w : Word) : decodeGroup8 w =
    if fieldN w = 0x0 then .ok (.ldVxVy (fieldX w) (fieldY w))
    else if fieldN w = 0x1 then .ok (.orVxVy (fieldX w) (fieldY w))
    else if fieldN w = 0x2 then .ok (.andVxVy (fieldX w) (fieldY w))
    else if fieldN w = 0x3 then .ok (.xorVxVy (fieldX w) (fieldY w))
    else if fieldN w = 0x4 then .ok (.addVxVy (fieldX w) (fieldY w))
    else if fieldN w = 0x5 then .ok (.subVxVy (fieldX w) (fieldY w))
    else if fieldN w = 0x6 then .ok (.shrVxVy (fieldX w) (fieldY w))
    else if fieldN w = 0x7 then .ok (.subnVxVy (fieldX w) (fieldY w))
    else if fieldN w = 0xE then .ok (.shlVxVy (fieldX w) (fieldY w))
    else .error (.illegalWord w) := by
  simp only [decodeGroup8, BitVec.toNat_eq]
  split <;> simp_all

theorem decodeGroupE_eq (w : Word) : decodeGroupE w =
    if fieldNn w = 0x9E then .ok (.skpVx (fieldX w))
    else if fieldNn w = 0xA1 then .ok (.sknpVx (fieldX w))
    else .error (.illegalWord w) := by
  simp only [decodeGroupE, BitVec.toNat_eq]
  split <;> simp_all

theorem decodeGroupF_eq (w : Word) : decodeGroupF w =
    if fieldNn w = 0x07 then .ok (.ldVxDt (fieldX w))
    else if fieldNn w = 0x0A then .ok (.ldVxK (fieldX w))
    else if fieldNn w = 0x15 then .ok (.ldDtVx (fieldX w))
    else if fieldNn w = 0x18 then .ok (.ldStVx (fieldX w))
    else if fieldNn w = 0x1E then .ok (.addIVx (fieldX w))
    else if fieldNn w = 0x29 then .ok (.ldFVx (fieldX w))
    else if fieldNn w = 0x33 then .ok (.ldBVx (fieldX w))
    else if fieldNn w = 0x55 then .ok (.ldMemVx (fieldX w))
    else if fieldNn w = 0x65 then .ok (.ldVxMem (fieldX w))
    else .error (.illegalWord w) := by
  simp only [decodeGroupF, BitVec.toNat_eq]
  split <;> simp_all

/-! ### The groups with one instruction (R91) -/

/-- A group whose every word is `f` of its field `nnn`. -/
theorem decode_eq_of_toNat_nnn {g : Nat} {f : Addr → Instr} {w : Word} {nnn : Addr}
    (hf : fieldGroup w = g → decode w = .ok (f (fieldNnn w))) (h : w.toNat = g * 4096 + nnn.toNat) :
    decode w = .ok (f nnn) := by
  obtain ⟨hg, rfl⟩ := fields_of_toNat_nnn g h
  exact hf hg

/-- A group whose every word is `f` of its fields `x` and `nn`. -/
theorem decode_eq_of_toNat_xnn {g : Nat} {f : Reg → Byte → Instr} {w : Word} {x : Reg} {nn : Byte}
    (hf : fieldGroup w = g → decode w = .ok (f (fieldX w) (fieldNn w)))
    (h : w.toNat = g * 4096 + x.val * 256 + nn.toNat) : decode w = .ok (f x nn) := by
  obtain ⟨hg, rfl, rfl⟩ := fields_of_toNat_xnn g h
  exact hf hg

/-- A group whose every word is `f` of its fields `x`, `y` and `n`. -/
theorem decode_eq_of_toNat_xyn {g : Nat} {f : Reg → Reg → Nibble → Instr} {w : Word} {x y : Reg} {n : Nibble}
    (hf : fieldGroup w = g → decode w = .ok (f (fieldX w) (fieldY w) (fieldN w)))
    (h : w.toNat = g * 4096 + x.val * 256 + y.val * 16 + n.toNat) : decode w = .ok (f x y n) := by
  obtain ⟨hg, rfl, rfl, rfl⟩ := fields_of_toNat_xyn g h
  exact hf hg

/-! ### The obligations -/

/-- Settles O6: the decoder's branch for each group, at the fields of a word of the group's format. -/
theorem groupsWithOneInstruction : Obligations.GroupsWithOneInstruction := by
  intro x y n nn nnn w
  exact ⟨decode_eq_of_toNat_nnn decode_of_group1,
    decode_eq_of_toNat_nnn decode_of_group2,
    decode_eq_of_toNat_xnn decode_of_group3,
    decode_eq_of_toNat_xnn decode_of_group4,
    decode_eq_of_toNat_xnn decode_of_group6,
    decode_eq_of_toNat_xnn decode_of_group7,
    decode_eq_of_toNat_nnn decode_of_groupA,
    decode_eq_of_toNat_nnn decode_of_groupB,
    decode_eq_of_toNat_xnn decode_of_groupC,
    decode_eq_of_toNat_xyn decode_of_groupD⟩

/-- Settles O7: the fields of a word of format `XYN`, in the group's dispatch on `n`. -/
theorem groupEightDispatchesOnN : Obligations.GroupEightDispatchesOnN := by
  intro x y n w h
  obtain ⟨hg, rfl, rfl, rfl⟩ := fields_of_toNat_xyn 0x8 h
  rw [decode_of_group8 hg, decodeGroup8_eq]

/-- Settles O8: the fields of a word of format `XNN`, in each group's dispatch on `nn`. -/
theorem groupsEAndFDispatchOnNn : Obligations.GroupsEAndFDispatchOnNn := by
  intro x nn w
  constructor
  · intro h
    obtain ⟨hg, rfl, rfl⟩ := fields_of_toNat_xnn 0xE h
    rw [decode_of_groupE hg, decodeGroupE_eq]
  · intro h
    obtain ⟨hg, rfl, rfl⟩ := fields_of_toNat_xnn 0xF h
    rw [decode_of_groupF hg, decodeGroupF_eq]

end Sys2Proof

/-! The screen clear (spec/40_display.md R110): the body's state in closed form, then what the end of a completed step makes
of it. -/

namespace Sys2Proof.Machine

/-- The end of a completed step writes the timers, the sound flag and the report, none of which is in the frame (R236). -/
theorem Keeps.finish {writes : List Part} {dests : List Reg} {s u : State} (h : Keeps writes dests s u) :
    Keeps writes dests s ((timerTick u).setReport .ok) := h

/-- What the body of `00E0` leaves, before the tick (R110). -/
def clsBody (s : State) : State := ((advance s).setFb Framebuffer.clear).raiseRedraw

theorem exec_cls (s : State) : exec .cls s = .next ((timerTick (clsBody s)).setReport .ok) := by
  unfold exec execCls
  exact complete_ok rfl

theorem clsBody_keeps (s : State) : Keeps [.framebuffer, .redraw] [] s (clsBody s) := by
  simp [Keeps, clsBody]

/-- Settles O24: the closed form of the step, read field by field; the tick starts from the timers of `s`, which the body
does not write. -/
theorem clsClearsEveryCell : Obligations.ClsClearsEveryCell := by
  refine ⟨rfl, fun s => ⟨_, exec_cls s, ?_, ?_, ?_, (clsBody_keeps s).finish, finish_ticks (u := clsBody s) rfl⟩⟩
  · exact Framebuffer.cell_clear
  · simp [clsBody]
  · simp [clsBody]

end Sys2Proof.Machine

/-! The jump and the skips on an immediate (spec/41_control_flow.md R134, R136, R137): instructions whose body writes nothing
but `PC`. What such a step leaves is said once, for any body; a skip is the case of it at `PC + 4` or `PC + 2`. -/

namespace Sys2Proof.Machine

/-! ### Steps that write only `PC` -/

theorem setPc_keeps (s : State) (w : Word) : Keeps [] [] s (s.setPc w) := by
  simp [Keeps]

/-- An instruction whose body writes only `PC` completes with `PC` there, the frame kept and the timers ticked. -/
theorem complete_of_setPc {body : State → Except Fault State} {s : State} {w : Word}
    (h : body (advance s) = .ok ((advance s).setPc w)) :
    ∃ t, complete body s = .next t ∧ t.pc = w ∧ Keeps [] [] s t ∧ Ticks s.dt s.st s t :=
  ⟨_, complete_ok h, rfl, (setPc_keeps s w).finish, finish_ticks (u := s.setPc w) rfl⟩

/-- The target of a skip over the word after `pc0` is `pc0 + 4` (R136). -/
theorem skipIf_advance_pc (c : Prop) [Decidable c] (s : State) :
    (skipIf (decide c) (advance s)).pc = if c then s.pc + 4 else s.pc + 2 := by
  have two_words : s.pc + 2 + 2 = s.pc + 4 := BitVec.add_assoc s.pc 2 2
  simp only [skipIf_pc, advance_pc, two_words, decide_eq_true_eq]

theorem skipsWhen_iff {c : Prop} [Decidable c] {s t : State} :
    SkipsWhen c s t ↔ t.pc = if c then s.pc + 4 else s.pc + 2 := by
  by_cases hc : c <;> simp [SkipsWhen, hc]

/-- An instruction whose body is a skip completes, and skips exactly when the condition holds. -/
theorem complete_of_skipIf {body : State → Except Fault State} {c : Prop} [Decidable c] {s : State}
    (h : body (advance s) = .ok (skipIf (decide c) (advance s))) :
    ∃ t, complete body s = .next t ∧ SkipsWhen c s t ∧ Keeps [] [] s t ∧ Ticks s.dt s.st s t := by
  rw [skipIf_eq] at h
  obtain ⟨t, ht, hpc, hkeeps, hticks⟩ := complete_of_setPc h
  exact ⟨t, ht, skipsWhen_iff.2 (hpc.trans (skipIf_advance_pc c s)), hkeeps, hticks⟩

/-! ### The instructions -/

theorem exec_jp_completes (nnn : Addr) (s : State) :
    ∃ t, exec (.jp nnn) s = .next t ∧ t.pc = zextAddr nnn ∧ Keeps [] [] s t ∧ Ticks s.dt s.st s t := by
  unfold exec execJp
  exact complete_of_setPc rfl

theorem exec_seVxNn_completes (x : Reg) (nn : Byte) (s : State) : ∃ t, exec (.seVxNn x nn) s = .next t ∧
    SkipsWhen (s.reg x = nn) s t ∧ Keeps [] [] s t ∧ Ticks s.dt s.st s t := by
  unfold exec execSeVxNn
  exact complete_of_skipIf rfl

theorem exec_sneVxNn_completes (x : Reg) (nn : Byte) (s : State) : ∃ t, exec (.sneVxNn x nn) s = .next t ∧
    SkipsWhen (s.reg x ≠ nn) s t ∧ Keeps [] [] s t ∧ Ticks s.dt s.st s t := by
  unfold exec execSneVxNn
  exact complete_of_skipIf rfl

/-! ### The obligations -/

/-- Settles O28: the word of format `NNN`, and a step that writes only `PC`, the target being `nnn` itself. -/
theorem jpSetsPc : Obligations.JpSetsPc := by
  intro nnn s
  obtain ⟨t, ht, hpc, hkeeps, hticks⟩ := exec_jp_completes nnn s
  refine ⟨formatNnn_toNat 0x1000 nnn rfl, t, ht, ?_, hkeeps, hticks⟩
  rw [hpc, zextAddr_toNat]

/-- Settles O33: the words of format `XNN`, and a skip on the condition of each rule. -/
theorem skipsOnImmediate : Obligations.SkipsOnImmediate := fun x nn s =>
  ⟨formatXnn_toNat 0x3000 x nn rfl, formatXnn_toNat 0x4000 x nn rfl, exec_seVxNn_completes x nn s, exec_sneVxNn_completes x nn s⟩

end Sys2Proof.Machine

/-! The loads, the immediate addition and the bitwise operations (spec/42_register_alu.md R160 to R165): instructions whose body
writes one register and nothing else. The state such a step leaves is written once, with what it holds and keeps; each
instruction is then the byte it writes. No flag is among what is written, so `VF` is kept unless it is the destination. -/

namespace Sys2Proof.Machine

/-! ### Steps that write one register -/

/-- What a completed step leaves whose body writes only `b` into `Vx`. -/
def afterRegWrite (x : Reg) (b : Byte) (s : State) : State := (timerTick ((advance s).setReg x b)).setReport .ok

/-- An instruction whose body writes only `Vx` completes in that state. -/
theorem complete_of_setReg {body : State → Except Fault State} {s : State} {x : Reg} {b : Byte}
    (h : body (advance s) = .ok ((advance s).setReg x b)) : complete body s = .next (afterRegWrite x b s) :=
  complete_ok h

section

variable (x : Reg) (b : Byte) (s : State)

@[simp] theorem afterRegWrite_reg : (afterRegWrite x b s).reg x = b := by simp [afterRegWrite]

@[simp] theorem afterRegWrite_pc : (afterRegWrite x b s).pc = s.pc + 2 := rfl

theorem setReg_advance_keeps : Keeps [] [x] s ((advance s).setReg x b) := by
  refine ⟨fun r hr => ?_, ?_⟩
  · exact reg_setReg_of_ne (advance s) b (List.ne_of_not_mem_cons hr)
  · simp

theorem afterRegWrite_keeps : Keeps [] [x] s (afterRegWrite x b s) := (setReg_advance_keeps x b s).finish

theorem afterRegWrite_ticks : Ticks s.dt s.st s (afterRegWrite x b s) := finish_ticks (u := (advance s).setReg x b) rfl

end

/-! ### The instructions -/

section

variable (x y : Reg) (nn : Byte) (s : State)

theorem exec_ldVxNn : exec (.ldVxNn x nn) s = .next (afterRegWrite x nn s) := by
  unfold exec execLdVxNn
  exact complete_of_setReg rfl

theorem exec_addVxNn : exec (.addVxNn x nn) s = .next (afterRegWrite x (addByte (s.reg x) nn) s) := by
  unfold exec execAddVxNn
  exact complete_of_setReg rfl

theorem exec_ldVxVy : exec (.ldVxVy x y) s = .next (afterRegWrite x (s.reg y) s) := by
  unfold exec execLdVxVy
  exact complete_of_setReg rfl

theorem exec_orVxVy : exec (.orVxVy x y) s = .next (afterRegWrite x (s.reg x ||| s.reg y) s) := by
  unfold exec execOrVxVy
  exact complete_of_setReg rfl

theorem exec_andVxVy : exec (.andVxVy x y) s = .next (afterRegWrite x (s.reg x &&& s.reg y) s) := by
  unfold exec execAndVxVy
  exact complete_of_setReg rfl

theorem exec_xorVxVy : exec (.xorVxVy x y) s = .next (afterRegWrite x (s.reg x ^^^ s.reg y) s) := by
  unfold exec execXorVxVy
  exact complete_of_setReg rfl

end

/-- Format `XYS` of a group (R84), the fixed sub-operation counted with the group's base. -/
theorem formatXys_toNat (base : Word) (x y : Reg) (n : Nibble) (h : base.toNat % 4096 = 0) :
    (formatXyn base x y n).toNat = base.toNat + n.toNat + x.val * 256 + y.val * 16 := by
  rw [formatXyn_toNat base x y n h]
  omega

/-! ### The obligations -/

/-- Settles O35: the words of formats `XNN` and `XYS`, and the write of `nn` or of the old `Vy`. -/
theorem loadsReplaceVx : Obligations.LoadsReplaceVx := fun x y nn s =>
  ⟨formatXnn_toNat 0x6000 x nn rfl, formatXys_toNat 0x8000 x y 0x0 rfl,
    ⟨_, exec_ldVxNn x nn s, afterRegWrite_reg .., afterRegWrite_pc .., afterRegWrite_keeps .., afterRegWrite_ticks ..⟩,
    ⟨_, exec_ldVxVy x y s, afterRegWrite_reg .., afterRegWrite_pc .., afterRegWrite_keeps .., afterRegWrite_ticks ..⟩⟩

/-- Settles O36: the word of format `XNN`, and the write of the byte sum. -/
theorem addImmediateWraps : Obligations.AddImmediateWraps := by
  intro x nn s
  refine ⟨formatXnn_toNat 0x7000 x nn rfl, _, exec_addVxNn x nn s, ?_, afterRegWrite_pc .., afterRegWrite_keeps ..,
    afterRegWrite_ticks ..⟩
  rw [afterRegWrite_reg, addByte_toNat]

/-- Settles O37: the words of format `XYS`, and the write of the bitwise result, read bit by bit. -/
theorem logicIsBitwise : Obligations.LogicIsBitwise := by
  intro x y s
  refine ⟨formatXys_toNat 0x8000 x y 0x1 rfl, formatXys_toNat 0x8000 x y 0x2 rfl, formatXys_toNat 0x8000 x y 0x3 rfl,
    ⟨_, exec_orVxVy x y s, ?_, afterRegWrite_pc .., afterRegWrite_keeps .., afterRegWrite_ticks ..⟩,
    ⟨_, exec_andVxVy x y s, ?_, afterRegWrite_pc .., afterRegWrite_keeps .., afterRegWrite_ticks ..⟩,
    ⟨_, exec_xorVxVy x y s, ?_, afterRegWrite_pc .., afterRegWrite_keeps .., afterRegWrite_ticks ..⟩⟩
  · intro k _
    rw [afterRegWrite_reg, BitVec.getLsbD_or]
  · intro k _
    rw [afterRegWrite_reg, BitVec.getLsbD_and]
  · intro k _
    rw [afterRegWrite_reg, BitVec.getLsbD_xor]

end Sys2Proof.Machine

/-! The load of the index register (spec/43_index_memory.md R190): what a step leaves whose body writes only `I` is said once,
for any body. -/

namespace Sys2Proof.Machine

/-! ### Steps that write only `I` -/

theorem setI_advance_keeps (s : State) (w : Word) : Keeps [.index] [] s ((advance s).setI w) := by
  simp [Keeps]

/-- An instruction whose body writes only `I` completes with that word there, `PC` two further, the frame kept and the timers
ticked. -/
theorem complete_of_setI {body : State → Except Fault State} {s : State} {w : Word}
    (h : body (advance s) = .ok ((advance s).setI w)) :
    ∃ t, complete body s = .next t ∧ t.i = w ∧ t.pc = s.pc + 2 ∧ Keeps [.index] [] s t ∧ Ticks s.dt s.st s t :=
  ⟨_, complete_ok h, rfl, rfl, (setI_advance_keeps s w).finish, finish_ticks (u := (advance s).setI w) rfl⟩

/-! ### The instruction -/

theorem exec_ldINnn_completes (nnn : Addr) (s : State) : ∃ t, exec (.ldINnn nnn) s = .next t ∧
    t.i = zextAddr nnn ∧ t.pc = s.pc + 2 ∧ Keeps [.index] [] s t ∧ Ticks s.dt s.st s t := by
  unfold exec execLdINnn
  exact complete_of_setI rfl

/-! ### The obligation -/

/-- Settles O42: the word of format `NNN`, and a step that writes only `I`, zero extension keeping the number of `nnn`. -/
theorem ldILoadsTheAddress : Obligations.LdILoadsTheAddress := by
  intro nnn s
  obtain ⟨t, ht, hi, hpc, hkeeps, hticks⟩ := exec_ldINnn_completes nnn s
  refine ⟨formatNnn_toNat 0xA000 nnn rfl, t, ht, ?_, hpc, hkeeps, hticks⟩
  rw [hi, zextAddr_toNat]

end Sys2Proof.Machine

/-! The delay and sound timers (spec/44_timers_input.md R213, R215, R216). The read of `DT` writes one register; the writes of a
timer are one shape of step, said once, whose tick goes on from the timers the body left. -/

namespace Sys2Proof.Machine

/-! ### Steps that write only the timers -/

theorem setTimers_advance_keeps (s : State) (dt st : Byte) : Keeps [] [] s (((advance s).setDt dt).setSt st) := by
  simp [Keeps]

/-- An instruction whose body writes only the timers completes with those ticked, `PC` two further and the frame kept. -/
theorem complete_of_setTimers {body : State → Except Fault State} {s : State} {dt st : Byte}
    (h : body (advance s) = .ok (((advance s).setDt dt).setSt st)) :
    ∃ t, complete body s = .next t ∧ Ticks dt st s t ∧ t.pc = s.pc + 2 ∧ Keeps [] [] s t :=
  ⟨_, complete_ok h, finish_ticks (u := ((advance s).setDt dt).setSt st) rfl, rfl, (setTimers_advance_keeps s dt st).finish⟩

/-! ### The instructions -/

section

variable (x : Reg) (s : State)

theorem exec_ldVxDt : exec (.ldVxDt x) s = .next (afterRegWrite x s.dt s) := by
  unfold exec execLdVxDt
  exact complete_of_setReg rfl

theorem exec_ldDtVx_completes : ∃ t, exec (.ldDtVx x) s = .next t ∧
    Ticks (s.reg x) s.st s t ∧ t.pc = s.pc + 2 ∧ Keeps [] [] s t := by
  unfold exec execLdDtVx
  exact complete_of_setTimers rfl

theorem exec_ldStVx_completes : ∃ t, exec (.ldStVx x) s = .next t ∧
    Ticks s.dt (s.reg x) s t ∧ t.pc = s.pc + 2 ∧ Keeps [] [] s t := by
  unfold exec execLdStVx
  exact complete_of_setTimers rfl

end

/-- Format `XS` of a group (R84), the fixed sub-operation counted with the group's base. -/
theorem formatXs_toNat (base : Word) (x : Reg) (nn : Byte) (h : base.toNat % 4096 = 0) :
    (formatXnn base x nn).toNat = base.toNat + nn.toNat + x.val * 256 := by
  rw [formatXnn_toNat base x nn h, Nat.add_right_comm]

/-! ### The obligations -/

/-- Settles O50: the word of format `XS`, and the write of `DT` into `Vx` before the tick. -/
theorem ldVxDtReadsTheDelayTimer : Obligations.LdVxDtReadsTheDelayTimer := fun x s =>
  ⟨formatXs_toNat 0xF000 x 0x07 rfl, _, exec_ldVxDt x s, afterRegWrite_reg .., afterRegWrite_pc .., afterRegWrite_keeps ..,
    afterRegWrite_ticks ..⟩

/-- Settles O51: the words of format `XS`, and a tick that goes on from the timer the body wrote. -/
theorem timerWritesAreTickedAtOnce : Obligations.TimerWritesAreTickedAtOnce := fun x s =>
  ⟨formatXs_toNat 0xF000 x 0x15 rfl, formatXs_toNat 0xF000 x 0x18 rfl, exec_ldDtVx_completes x s, exec_ldStVx_completes x s⟩

end Sys2Proof.Machine

/-! The decoder and the encoder undo each other, and the decoder follows the opcode map (spec/30_encoding.md R84 to R98). A
word's number is put together again from its fields once for each operand format; the rows of the map fix fields of the words
they match. -/

namespace Sys2Proof

/-! ### The groups that test the rest of the word (R86, R90) -/

section

variable {w : Word}

theorem decode_of_group0 (h : fieldGroup w = 0x0) : decode w = decodeGroup0 w := by simp only [decode, h]

theorem decode_of_group5 (h : fieldGroup w = 0x5) (hn : fieldN w = 0) :
    decode w = .ok (.seVxVy (fieldX w) (fieldY w)) := by
  simp only [decode, h, hn, if_true]

theorem decode_of_group9 (h : fieldGroup w = 0x9) (hn : fieldN w = 0) :
    decode w = .ok (.sneVxVy (fieldX w) (fieldY w)) := by
  simp only [decode, h, hn, if_true]

end

/-! ### A word from its fields (R84) -/

section

variable {w : Word} {g : Nat} (hg : fieldGroup w = g)
include hg

theorem toNat_of_fields_nnn : w.toNat = g * 4096 + (fieldNnn w).toNat := by
  rw [← hg, fieldGroup_eq, fieldNnn_toNat]
  omega

theorem toNat_of_fields_xnn {nn : Byte} (hnn : fieldNn w = nn) :
    w.toNat = g * 4096 + (fieldX w).val * 256 + nn.toNat := by
  rw [← hg, ← hnn, fieldGroup_eq, fieldX_val, fieldNn_toNat]
  omega

theorem toNat_of_fields_xyn {n : Nibble} (hn : fieldN w = n) :
    w.toNat = g * 4096 + (fieldX w).val * 256 + (fieldY w).val * 16 + n.toNat := by
  rw [← hg, ← hn, fieldGroup_eq, fieldX_val, fieldY_val, fieldN_toNat]
  omega

variable {base : Word} (hb : base.toNat = g * 4096)
include hb

theorem formatNnn_fields : formatNnn base (fieldNnn w) = w := by
  apply BitVec.eq_of_toNat_eq
  rw [formatNnn_toNat _ _ (by omega), hb, toNat_of_fields_nnn hg]

theorem formatXnn_fields {nn : Byte} (hnn : fieldNn w = nn) : formatXnn base (fieldX w) nn = w := by
  apply BitVec.eq_of_toNat_eq
  rw [formatXnn_toNat _ _ _ (by omega), hb, toNat_of_fields_xnn hg hnn]

theorem formatXyn_fields {n : Nibble} (hn : fieldN w = n) : formatXyn base (fieldX w) (fieldY w) n = w := by
  apply BitVec.eq_of_toNat_eq
  rw [formatXyn_toNat _ _ _ _ (by omega), hb, toNat_of_fields_xyn hg hn]

end

/-! ### Decoding an encoded instruction -/

section

variable (x y : Reg)

/-- `0NNN` is what group 0 reads unless the word is one of the two whole words (R86). -/
theorem decode_formatNnn_zero {nnn : Addr} (h : sysAddrOk nnn) : decode (formatNnn 0x0000 nnn) = .ok (.sys nnn) := by
  obtain ⟨hcls, hret⟩ := h
  have hw := formatNnn_toNat 0x0000 nnn rfl
  obtain ⟨hg, hnnn⟩ := fields_of_toNat_nnn 0x0 hw
  have ne_of_field (v : Word) (hv : nnn ≠ fieldNnn v) : formatNnn 0x0000 nnn ≠ v := fun e => hv (e ▸ hnnn.symm)
  rw [decode_of_group0 hg, decodeGroup0, if_neg (ne_of_field 0x00E0 hcls), if_neg (ne_of_field 0x00EE hret), hnnn]

theorem decode_formatXyn_five : decode (formatXyn 0x5000 x y 0x0) = .ok (.seVxVy x y) := by
  obtain ⟨hg, hx, hy, hn⟩ := fields_of_toNat_xyn 0x5 (formatXyn_toNat 0x5000 x y 0x0 rfl)
  rw [decode_of_group5 hg hn, hx, hy]

theorem decode_formatXyn_nine : decode (formatXyn 0x9000 x y 0x0) = .ok (.sneVxVy x y) := by
  obtain ⟨hg, hx, hy, hn⟩ := fields_of_toNat_xyn 0x9 (formatXyn_toNat 0x9000 x y 0x0 rfl)
  rw [decode_of_group9 hg hn, hx, hy]

end

theorem decode_encode (i : Instr) (h : i.WellFormed) : decode (encode i) = .ok i := by
  cases i with
  | cls | ret => rfl
  | sys nnn => exact decode_formatNnn_zero (of_decide_eq_true h)
  | jp nnn => exact decode_eq_of_toNat_nnn decode_of_group1 (formatNnn_toNat 0x1000 nnn rfl)
  | call nnn => exact decode_eq_of_toNat_nnn decode_of_group2 (formatNnn_toNat 0x2000 nnn rfl)
  | seVxNn x nn => exact decode_eq_of_toNat_xnn decode_of_group3 (formatXnn_toNat 0x3000 x nn rfl)
  | sneVxNn x nn => exact decode_eq_of_toNat_xnn decode_of_group4 (formatXnn_toNat 0x4000 x nn rfl)
  | seVxVy x y => exact decode_formatXyn_five x y
  | ldVxNn x nn => exact decode_eq_of_toNat_xnn decode_of_group6 (formatXnn_toNat 0x6000 x nn rfl)
  | addVxNn x nn => exact decode_eq_of_toNat_xnn decode_of_group7 (formatXnn_toNat 0x7000 x nn rfl)
  | ldVxVy x y | orVxVy x y | andVxVy x y | xorVxVy x y | addVxVy x y | subVxVy x y | shrVxVy x y | subnVxVy x y
  | shlVxVy x y => exact groupEightDispatchesOnN x y _ _ (formatXyn_toNat 0x8000 x y _ rfl)
  | sneVxVy x y => exact decode_formatXyn_nine x y
  | ldINnn nnn => exact decode_eq_of_toNat_nnn decode_of_groupA (formatNnn_toNat 0xA000 nnn rfl)
  | jpV0Nnn nnn => exact decode_eq_of_toNat_nnn decode_of_groupB (formatNnn_toNat 0xB000 nnn rfl)
  | rndVxNn x nn => exact decode_eq_of_toNat_xnn decode_of_groupC (formatXnn_toNat 0xC000 x nn rfl)
  | drwVxVyN x y n => exact decode_eq_of_toNat_xyn decode_of_groupD (formatXyn_toNat 0xD000 x y n rfl)
  | skpVx x | sknpVx x => exact (groupsEAndFDispatchOnNn x _ _).1 (formatXnn_toNat 0xE000 x _ rfl)
  | ldVxDt x | ldVxK x | ldDtVx x | ldStVx x | addIVx x | ldFVx x | ldBVx x | ldMemVx x
  | ldVxMem x => exact (groupsEAndFDispatchOnNn x _ _).2 (formatXnn_toNat 0xF000 x _ rfl)

theorem ofBytes_hiByte_loByte (w : Word) : Word.ofBytes w.hiByte w.loByte = w := by
  apply BitVec.eq_of_toNat_eq
  rw [ofBytes_toNat]
  simp [Word.hiByte, Word.loByte, Nat.shiftRight_eq_div_pow]
  omega

theorem decodeBytes_encodeBytes (i : Instr) (rest : List Byte) :
    decodeBytes (encodeBytes i ++ rest) = (decode (encode i)).map (·, rest) := by
  simp only [encodeBytes, List.cons_append, List.nil_append, decodeBytes, ofBytes_hiByte_loByte]

/-- Settles O2: the dispatch at the fields of the encoded word, one constructor after the other; the bytes are those of the
word. -/
theorem decodeInvertsEncode : Obligations.DecodeInvertsEncode := by
  intro i hi
  refine ⟨decode_encode i hi, fun rest => ?_⟩
  rw [decodeBytes_encodeBytes, decode_encode i hi]
  rfl

/-! ### Encoding a decoded word -/

/-- The instruction has a word of its own, and it is `w`. -/
def IsWordOf (w : Word) (i : Instr) : Prop := i.WellFormed ∧ encode i = w

section

variable {w : Word} {i : Instr}

theorem isWordOf_of_decodeGroup0 (hg : fieldGroup w = 0x0) (h : decodeGroup0 w = .ok i) : IsWordOf w i := by
  unfold decodeGroup0 at h
  split_ifs at h with hcls hret
  · cases h
    exact ⟨rfl, hcls.symm⟩
  · cases h
    exact ⟨rfl, hret.symm⟩
  · cases h
    have henc : formatNnn 0x0000 (fieldNnn w) = w := formatNnn_fields hg rfl
    refine ⟨decide_eq_true ⟨fun e => hcls ?_, fun e => hret ?_⟩, henc⟩
    · rw [← henc, e]
      rfl
    · rw [← henc, e]
      rfl

theorem isWordOf_of_decodeGroup8 (hg : fieldGroup w = 0x8) (h : decodeGroup8 w = .ok i) : IsWordOf w i := by
  rw [decodeGroup8_eq] at h
  split_ifs at h
  all_goals
    cases h
    exact ⟨rfl, formatXyn_fields hg rfl ‹_›⟩

theorem isWordOf_of_decodeGroupE (hg : fieldGroup w = 0xE) (h : decodeGroupE w = .ok i) : IsWordOf w i := by
  rw [decodeGroupE_eq] at h
  split_ifs at h
  all_goals
    cases h
    exact ⟨rfl, formatXnn_fields hg rfl ‹_›⟩

theorem isWordOf_of_decodeGroupF (hg : fieldGroup w = 0xF) (h : decodeGroupF w = .ok i) : IsWordOf w i := by
  rw [decodeGroupF_eq] at h
  split_ifs at h
  all_goals
    cases h
    exact ⟨rfl, formatXnn_fields hg rfl ‹_›⟩

end

/-- Settles O3: the decoder's branches; in each the fields it read give the word back. -/
theorem encodeInvertsDecode : Obligations.EncodeInvertsDecode := by
  intro w i h
  show IsWordOf w i
  unfold decode at h
  split at h
  case h_1 hg => exact isWordOf_of_decodeGroup0 hg h
  case h_9 hg => exact isWordOf_of_decodeGroup8 hg h
  case h_15 hg => exact isWordOf_of_decodeGroupE hg h
  case h_16 hg => exact isWordOf_of_decodeGroupF hg h
  case h_6 hg | h_10 hg =>
    split_ifs at h with hn
    cases h
    exact ⟨rfl, formatXyn_fields hg rfl hn⟩
  case h_14 hg =>
    cases h
    exact ⟨rfl, formatXyn_fields hg rfl rfl⟩
  case h_4 hg | h_5 hg | h_7 hg | h_8 hg | h_13 hg =>
    cases h
    exact ⟨rfl, formatXnn_fields hg rfl rfl⟩
  case h_2 hg | h_3 hg | h_11 hg | h_12 hg =>
    cases h
    exact ⟨rfl, formatNnn_fields hg rfl⟩
  case h_17 => cases h

end Sys2Proof

/-! The opcode map and the illegal words (spec/30_encoding.md R92, R98): a row's mask fixes fields of the words it matches,
and those fields select the decoder's branch. -/

namespace Sys2Proof

/-! ### What a row fixes (R98) -/

section

variable {w : Word} {r : OpcodeRow} (h : r.Matches w)
include h

/-- A field whose bits the mask keeps is the field of the row's value. -/
theorem field_of_matches {start len : Nat} (hm : r.mask.extractLsb' start len = BitVec.allOnes len) :
    w.extractLsb' start len = r.value.extractLsb' start len := by
  rw [← h, BitVec.extractLsb'_and, hm, BitVec.and_allOnes]

theorem fieldGroup_of_matches (hm : r.mask.extractLsb' 12 4 = BitVec.allOnes 4) : fieldGroup w = fieldGroup r.value :=
  congrArg BitVec.toNat (field_of_matches h hm)

theorem fieldN_of_matches (hm : r.mask.extractLsb' 0 4 = BitVec.allOnes 4) : fieldN w = fieldN r.value :=
  field_of_matches h hm

theorem fieldNn_of_matches (hm : r.mask.extractLsb' 0 8 = BitVec.allOnes 8) : fieldNn w = fieldNn r.value :=
  field_of_matches h hm

/-- A row of format `XYS` fixes all of the word but `x` and `y`. -/
theorem toNat_of_matches_xys (hm : r.mask = 0xF00F) :
    w.toNat = fieldGroup r.value * 4096 + (fieldX w).val * 256 + (fieldY w).val * 16 + (fieldN r.value).toNat :=
  toNat_of_fields_xyn (fieldGroup_of_matches h (by rw [hm]; rfl)) (fieldN_of_matches h (by rw [hm]; rfl))

/-- A row of format `XS` fixes all of the word but `x`. -/
theorem toNat_of_matches_xs (hm : r.mask = 0xF0FF) :
    w.toNat = fieldGroup r.value * 4096 + (fieldX w).val * 256 + (fieldNn r.value).toNat :=
  toNat_of_fields_xnn (fieldGroup_of_matches h (by rw [hm]; rfl)) (fieldNn_of_matches h (by rw [hm]; rfl))

theorem eq_of_matches (hm : r.mask = BitVec.allOnes 16) : w = r.value := by
  rw [← h, hm, BitVec.and_allOnes]

end

theorem encode_matches_row (i : Instr) : ∃ row, opcodeRows[i.row]? = some row ∧ row.Matches (encode i) := by
  cases i with
  | cls => exact Laws.EncodesInRow.cls
  | ret => exact Laws.EncodesInRow.ret
  | sys nnn => exact Laws.EncodesInRow.sys nnn
  | jp nnn => exact Laws.EncodesInRow.jp nnn
  | call nnn => exact Laws.EncodesInRow.call nnn
  | seVxNn x nn => exact Laws.EncodesInRow.seVxNn x nn
  | sneVxNn x nn => exact Laws.EncodesInRow.sneVxNn x nn
  | seVxVy x y => exact Laws.EncodesInRow.seVxVy x y
  | ldVxNn x nn => exact Laws.EncodesInRow.ldVxNn x nn
  | addVxNn x nn => exact Laws.EncodesInRow.addVxNn x nn
  | ldVxVy x y => exact Laws.EncodesInRow.ldVxVy x y
  | orVxVy x y => exact Laws.EncodesInRow.orVxVy x y
  | andVxVy x y => exact Laws.EncodesInRow.andVxVy x y
  | xorVxVy x y => exact Laws.EncodesInRow.xorVxVy x y
  | addVxVy x y => exact Laws.EncodesInRow.addVxVy x y
  | subVxVy x y => exact Laws.EncodesInRow.subVxVy x y
  | shrVxVy x y => exact Laws.EncodesInRow.shrVxVy x y
  | subnVxVy x y => exact Laws.EncodesInRow.subnVxVy x y
  | shlVxVy x y => exact Laws.EncodesInRow.shlVxVy x y
  | sneVxVy x y => exact Laws.EncodesInRow.sneVxVy x y
  | ldINnn nnn => exact Laws.EncodesInRow.ldINnn nnn
  | jpV0Nnn nnn => exact Laws.EncodesInRow.jpV0Nnn nnn
  | rndVxNn x nn => exact Laws.EncodesInRow.rndVxNn x nn
  | drwVxVyN x y n => exact Laws.EncodesInRow.drwVxVyN x y n
  | skpVx x => exact Laws.EncodesInRow.skpVx x
  | sknpVx x => exact Laws.EncodesInRow.sknpVx x
  | ldVxDt x => exact Laws.EncodesInRow.ldVxDt x
  | ldVxK x => exact Laws.EncodesInRow.ldVxK x
  | ldDtVx x => exact Laws.EncodesInRow.ldDtVx x
  | ldStVx x => exact Laws.EncodesInRow.ldStVx x
  | addIVx x => exact Laws.EncodesInRow.addIVx x
  | ldFVx x => exact Laws.EncodesInRow.ldFVx x
  | ldBVx x => exact Laws.EncodesInRow.ldBVx x
  | ldMemVx x => exact Laws.EncodesInRow.ldMemVx x
  | ldVxMem x => exact Laws.EncodesInRow.ldVxMem x

/-! ### The instruction of a matched row -/

/-- The word decodes to an instruction of row `k`. -/
def DecodesInRow (w : Word) (k : Nat) : Prop := ∃ i, decode w = .ok i ∧ i.row = k

theorem decodesInRow_of_matches {w : Word} : ∀ (k : Nat) (row : OpcodeRow), opcodeRows[k]? = some row → row.Matches w →
    (k = 2 → w ≠ 0x00E0 ∧ w ≠ 0x00EE) → DecodesInRow w k
  | 0, _, rfl, h, _ => ⟨.cls, by rw [eq_of_matches h rfl]; rfl, rfl⟩
  | 1, _, rfl, h, _ => ⟨.ret, by rw [eq_of_matches h rfl]; rfl, rfl⟩
  | 2, _, rfl, h, hw => by
    obtain ⟨hcls, hret⟩ := hw rfl
    refine ⟨.sys (fieldNnn w), ?_, rfl⟩
    rw [decode_of_group0 (fieldGroup_of_matches h rfl), decodeGroup0, if_neg hcls, if_neg hret]
  | 3, _, rfl, h, _ => ⟨_, decode_of_group1 (fieldGroup_of_matches h rfl), rfl⟩
  | 4, _, rfl, h, _ => ⟨_, decode_of_group2 (fieldGroup_of_matches h rfl), rfl⟩
  | 5, _, rfl, h, _ => ⟨_, decode_of_group3 (fieldGroup_of_matches h rfl), rfl⟩
  | 6, _, rfl, h, _ => ⟨_, decode_of_group4 (fieldGroup_of_matches h rfl), rfl⟩
  | 7, _, rfl, h, _ => ⟨_, decode_of_group5 (fieldGroup_of_matches h rfl) (fieldN_of_matches h rfl), rfl⟩
  | 8, _, rfl, h, _ => ⟨_, decode_of_group6 (fieldGroup_of_matches h rfl), rfl⟩
  | 9, _, rfl, h, _ => ⟨_, decode_of_group7 (fieldGroup_of_matches h rfl), rfl⟩
  | 10, _, rfl, h, _ => ⟨_, groupEightDispatchesOnN _ _ _ _ (toNat_of_matches_xys h rfl), rfl⟩
  | 11, _, rfl, h, _ => ⟨_, groupEightDispatchesOnN _ _ _ _ (toNat_of_matches_xys h rfl), rfl⟩
  | 12, _, rfl, h, _ => ⟨_, groupEightDispatchesOnN _ _ _ _ (toNat_of_matches_xys h rfl), rfl⟩
  | 13, _, rfl, h, _ => ⟨_, groupEightDispatchesOnN _ _ _ _ (toNat_of_matches_xys h rfl), rfl⟩
  | 14, _, rfl, h, _ => ⟨_, groupEightDispatchesOnN _ _ _ _ (toNat_of_matches_xys h rfl), rfl⟩
  | 15, _, rfl, h, _ => ⟨_, groupEightDispatchesOnN _ _ _ _ (toNat_of_matches_xys h rfl), rfl⟩
  | 16, _, rfl, h, _ => ⟨_, groupEightDispatchesOnN _ _ _ _ (toNat_of_matches_xys h rfl), rfl⟩
  | 17, _, rfl, h, _ => ⟨_, groupEightDispatchesOnN _ _ _ _ (toNat_of_matches_xys h rfl), rfl⟩
  | 18, _, rfl, h, _ => ⟨_, groupEightDispatchesOnN _ _ _ _ (toNat_of_matches_xys h rfl), rfl⟩
  | 19, _, rfl, h, _ => ⟨_, decode_of_group9 (fieldGroup_of_matches h rfl) (fieldN_of_matches h rfl), rfl⟩
  | 20, _, rfl, h, _ => ⟨_, decode_of_groupA (fieldGroup_of_matches h rfl), rfl⟩
  | 21, _, rfl, h, _ => ⟨_, decode_of_groupB (fieldGroup_of_matches h rfl), rfl⟩
  | 22, _, rfl, h, _ => ⟨_, decode_of_groupC (fieldGroup_of_matches h rfl), rfl⟩
  | 23, _, rfl, h, _ => ⟨_, decode_of_groupD (fieldGroup_of_matches h rfl), rfl⟩
  | 24, _, rfl, h, _ => ⟨_, (groupsEAndFDispatchOnNn _ _ _).1 (toNat_of_matches_xs h rfl), rfl⟩
  | 25, _, rfl, h, _ => ⟨_, (groupsEAndFDispatchOnNn _ _ _).1 (toNat_of_matches_xs h rfl), rfl⟩
  | 26, _, rfl, h, _ => ⟨_, (groupsEAndFDispatchOnNn _ _ _).2 (toNat_of_matches_xs h rfl), rfl⟩
  | 27, _, rfl, h, _ => ⟨_, (groupsEAndFDispatchOnNn _ _ _).2 (toNat_of_matches_xs h rfl), rfl⟩
  | 28, _, rfl, h, _ => ⟨_, (groupsEAndFDispatchOnNn _ _ _).2 (toNat_of_matches_xs h rfl), rfl⟩
  | 29, _, rfl, h, _ => ⟨_, (groupsEAndFDispatchOnNn _ _ _).2 (toNat_of_matches_xs h rfl), rfl⟩
  | 30, _, rfl, h, _ => ⟨_, (groupsEAndFDispatchOnNn _ _ _).2 (toNat_of_matches_xs h rfl), rfl⟩
  | 31, _, rfl, h, _ => ⟨_, (groupsEAndFDispatchOnNn _ _ _).2 (toNat_of_matches_xs h rfl), rfl⟩
  | 32, _, rfl, h, _ => ⟨_, (groupsEAndFDispatchOnNn _ _ _).2 (toNat_of_matches_xs h rfl), rfl⟩
  | 33, _, rfl, h, _ => ⟨_, (groupsEAndFDispatchOnNn _ _ _).2 (toNat_of_matches_xs h rfl), rfl⟩
  | 34, _, rfl, h, _ => ⟨_, (groupsEAndFDispatchOnNn _ _ _).2 (toNat_of_matches_xs h rfl), rfl⟩
  | k + 35, _, h, _, _ => nomatch (h : none = _)

/-- Settles O4: a decoded word is the word of its instruction, which matches the instruction's row; and the fields a row
fixes select the branch of its instruction. -/
theorem decodeFollowsOpcodeMap : Obligations.DecodeFollowsOpcodeMap := by
  refine fun w => ⟨fun i hi => ?_, decodesInRow_of_matches⟩
  obtain ⟨-, rfl⟩ := encodeInvertsDecode w i hi
  exact encode_matches_row i

/-! ### The illegal words (R92) -/

theorem decodeGroup0_legal (w : Word) : ∃ i, decodeGroup0 w = .ok i := by
  unfold decodeGroup0
  split_ifs
  · exact ⟨_, rfl⟩
  · exact ⟨_, rfl⟩
  · exact ⟨_, rfl⟩

/-- Groups 5 and 9: only `n = 0` is an instruction (R90). -/
theorem zeroN_error_iff (w : Word) (i : Instr) :
    (∃ e, (if fieldN w = 0 then .ok i else .error (.illegalWord w) : Except DecodeError Instr) = .error e) ↔
      w.toNat % 16 ≠ 0 := by
  rw [← fieldN_toNat, Ne, ← BitVec.toNat_zero (w := 4), ← BitVec.toNat_eq]
  split_ifs with h
  · simp [h]
  · simpa using h

theorem decodeGroup8_error_iff (w : Word) :
    (∃ e, decodeGroup8 w = .error e) ↔ w.toNat % 16 ∈ [0x8, 0x9, 0xA, 0xB, 0xC, 0xD, 0xF] := by
  have hlt := (fieldN w).isLt
  rw [← fieldN_toNat]
  unfold decodeGroup8
  split
  case h_10 =>
    simp only [imp_false] at *
    simp only [Except.error.injEq, exists_eq', true_iff, List.mem_cons, List.not_mem_nil, or_false]
    omega
  all_goals simp [*]

theorem decodeGroupE_error_iff (w : Word) : (∃ e, decodeGroupE w = .error e) ↔ w.toNat % 256 ∉ [0x9E, 0xA1] := by
  rw [← fieldNn_toNat]
  unfold decodeGroupE
  split <;> simp_all [imp_false]

theorem decodeGroupF_error_iff (w : Word) : (∃ e, decodeGroupF w = .error e) ↔
    w.toNat % 256 ∉ [0x07, 0x0A, 0x15, 0x18, 0x1E, 0x29, 0x33, 0x55, 0x65] := by
  rw [← fieldNn_toNat]
  unfold decodeGroupF
  split <;> simp_all [imp_false]

/-- Settles O5: group by group, the branch of the decoder answers no instruction on the group's listed words alone. -/
theorem illegalWordsAreTheListedOnes : Obligations.IllegalWordsAreTheListedOnes := by
  intro w
  have hlt := w.isLt
  have hg := fieldGroup_eq w
  unfold decode
  split
  case h_17 =>
    simp only [imp_false] at *
    omega
  all_goals
    rename_i h
    rw [h] at hg
  case h_1 =>
    obtain ⟨i, hi⟩ := decodeGroup0_legal w
    simp [hi, ← hg]
  case h_6 | h_10 =>
    rw [zeroN_error_iff]
    simp [← hg]
  case h_9 => simp [decodeGroup8_error_iff, ← hg]
  case h_15 => simp [decodeGroupE_error_iff, ← hg]
  case h_16 => simp [decodeGroupF_error_iff, ← hg]
  all_goals simp [← hg]

/-- Settles O1: each word is run through the decoder. -/
theorem specWordsDecode : Obligations.SpecWordsDecode := ⟨rfl, rfl, rfl, rfl, rfl, rfl, rfl, rfl, rfl, rfl, rfl, rfl⟩

end Sys2Proof

/-! What every instruction can do, said once (spec/30_encoding.md R80, spec/10_state.md R22 to R35). An instruction that
commits no contract violation ends in a state with the effect its tables give it; one that commits a violation faults as
listed; and `FX0A` with no key pressed is held. The rules about every instruction and every step are read off it. -/

namespace Sys2Proof.Machine

/-! ### The frame of a composed body -/

section

variable {writes : List Part} {dests : List Reg} {s u : State}

theorem keeps_advance (writes : List Part) (dests : List Reg) (s : State) : Keeps writes dests s (advance s) := by
  simp [Keeps]

theorem Keeps.setReg (h : Keeps writes dests s u) {x : Reg} (hx : x ∈ dests) (b : Byte) :
    Keeps writes dests s (u.setReg x b) := by
  obtain ⟨hregs, hparts⟩ := h
  refine ⟨fun r hr => ?_, hparts⟩
  rw [reg_setReg_of_ne u b (ne_of_mem_of_not_mem hx hr).symm, hregs r hr]

theorem Keeps.setI (h : Keeps writes dests s u) (hi : .index ∈ writes) (w : Word) : Keeps writes dests s (u.setI w) := by
  obtain ⟨hregs, -, hparts⟩ := h
  exact ⟨hregs, fun hn => absurd hi hn, hparts⟩

theorem Keeps.setMem (h : Keeps writes dests s u) (hm : .memory ∈ writes) (m : Memory) :
    Keeps writes dests s (u.setMem m) := by
  obtain ⟨hregs, hi, hstack, -, hparts⟩ := h
  exact ⟨hregs, hi, hstack, fun hn => absurd hm hn, hparts⟩

/-- A drawn value counts as a write of the count of free values. -/
theorem Keeps.countDraw (h : Keeps writes dests s u) (hd : .draws ∈ writes) :
    Keeps writes dests s { u with draws := u.draws + 1 } := by
  obtain ⟨hregs, hi, hstack, hmem, hfb, hredraw, -, hkeys⟩ := h
  exact ⟨hregs, hi, hstack, hmem, hfb, hredraw, fun hn => absurd hd hn, hkeys⟩

end

/-- The operations that write a result and then the flag. -/
theorem keeps_result_then_flag (x : Reg) (a b : Byte) (s : State) :
    Keeps [] [x, 15] s (((advance s).setReg x a).setVF b) :=
  ((keeps_advance _ _ s).setReg (by simp) a).setReg (by simp) b

/-- The shifts, which write the flag first. -/
theorem keeps_flag_then_result (x : Reg) (a b : Byte) (s : State) :
    Keeps [] [x, 15] s (((advance s).setVF a).setReg x b) :=
  ((keeps_advance _ _ s).setReg (by simp) a).setReg (by simp) b

/-! ### How an instruction's step ends -/

/-- All that the body of `i`, at `s`, can leave in `u`, before the tick: the frame and `PC` of the spec's tables, the timers
as the tick finds them, no flag lowered, bytes stored in the program/data region only, and each return address held in `u`
held before or just pushed. The defaults are for a body that leaves the part alone. -/
structure BodyEffect (i : Instr) (s u : State) : Prop where
  keeps : Keeps (partsWritten i) (regsWritten i) s u
  pc : PcAfter s u i := by exact rfl
  dt : u.dt = dtAtTick s i := by rfl
  st : u.st = stAtTick s i := by rfl
  sound : u.soundFlag = s.soundFlag := by rfl
  redraw : s.redrawFlag = true → u.redrawFlag = true := by exact id
  stores : ∃ a bs, 0x200 ≤ a ∧ a + bs.length ≤ 4096 ∧ u.mem = s.mem.pokeBytes a bs := by
    exact ⟨0x200, [], by decide, by decide, rfl⟩
  stack : ∀ k : Fin 16, k.val < u.sp.val → (k.val < s.sp.val ∧ u.stack[k] = s.stack[k]) ∨ u.stack[k] = s.pc + 2 := by
    exact fun _ hk => .inl ⟨hk, rfl⟩

/-- The instruction completes, and leaves what its body can leave, ticked. -/
def Completes (i : Instr) (s : State) : Prop :=
  ∃ u, exec i s = .next ((timerTick u).setReport .ok) ∧ BodyEffect i s u

/-- The instruction completes where it commits no contract violation, and otherwise faults as R234 lists. -/
def EndsAsListed (i : Instr) (s : State) : Prop :=
  (MayComplete s i ∧ Completes i s) ∨ (¬ MayComplete s i ∧ ∃ f, exec i s = .fault f ∧ FaultOf s f i)

/-! ### Control flow -/

/-- What a call leaves, before the tick (R130, R135). -/
def called (target : Word) (s : State) (h : s.sp.val < 16) : State :=
  { s with pc := target, stack := s.stack.set s.sp.val (s.pc + 2), sp := ⟨s.sp.val + 1, by omega⟩ }

/-- What a return leaves, before the tick (R131, R132). -/
def returned (s : State) (h : 0 < s.sp.val) : State :=
  { s with pc := s.stack[s.sp.val - 1], sp := ⟨s.sp.val - 1, by omega⟩ }

section

variable {s : State}

theorem complete_callTo (target : Word) (h : s.sp.val < 16) :
    complete (callTo s.pc target) s = .next ((timerTick (called target s h)).setReport .ok) := by
  apply complete_ok
  rw [callTo, push_eq _ _ (s := advance s) h]
  rfl

theorem complete_callTo_full (target : Word) (h : s.sp.val = 16) :
    complete (callTo s.pc target) s = .fault (.stackOverflow s.pc 16) := by
  apply complete_fault.2
  rw [callTo, push_full _ _ (s := advance s) h]
  rfl

theorem called_stack (target : Word) (h : s.sp.val < 16) (k : Fin 16) :
    (called target s h).stack[k] = if k.val = s.sp.val then s.pc + 2 else s.stack[k] := by
  by_cases hk : k.val = s.sp.val
  · simp [called, hk]
  · simp [called, hk, Ne.symm hk]

theorem called_keeps (target : Word) (h : s.sp.val < 16) : Keeps [.stack] [] s (called target s h) := by
  simp [Keeps, called, State.reg]

theorem called_held (target : Word) (h : s.sp.val < 16) (k : Fin 16) (hk : k.val < (called target s h).sp.val) :
    (k.val < s.sp.val ∧ (called target s h).stack[k] = s.stack[k]) ∨ (called target s h).stack[k] = s.pc + 2 := by
  rw [called_stack]
  split_ifs with htop
  · exact .inr rfl
  · have : k.val < s.sp.val + 1 := hk
    exact .inl ⟨by omega, rfl⟩

theorem exec_ret (h : 0 < s.sp.val) : exec .ret s = .next ((timerTick (returned s h)).setReport .ok) := by
  unfold exec execRet
  apply complete_ok
  rw [pop_eq _ (s := advance s) h]
  rfl

theorem exec_ret_empty (h : s.sp.val = 0) : exec .ret s = .fault (.stackUnderflow s.pc 0) := by
  unfold exec execRet
  apply complete_fault.2
  rw [pop_empty _ (s := advance s) h]
  rfl

theorem endsAsListed_call (nnn : Addr) (s : State) : EndsAsListed (.call nnn) s := by
  by_cases h : s.sp.val < 16
  · exact .inl ⟨h, _, complete_callTo _ h,
      { keeps := called_keeps _ h, pc := zextAddr_toNat nnn, stack := called_held _ h }⟩
  · exact .inr ⟨h, _, complete_callTo_full _ (by omega), rfl⟩

theorem endsAsListed_sys (nnn : Addr) (s : State) : EndsAsListed (.sys nnn) s := by
  by_cases h : s.sp.val < 16
  · exact .inl ⟨h, _, complete_callTo _ h,
      { keeps := called_keeps _ h, pc := zextAddr_toNat nnn, stack := called_held _ h }⟩
  · exact .inr ⟨h, _, complete_callTo_full _ (by omega), rfl⟩

theorem endsAsListed_ret (s : State) : EndsAsListed .ret s := by
  by_cases h : 0 < s.sp.val
  · refine .inl ⟨h, _, exec_ret h, { keeps := ?_, pc := ?_, stack := ?_ }⟩
    · simp [Keeps, partsWritten, returned, State.reg]
    · exact ⟨⟨s.sp.val - 1, by omega⟩, Nat.sub_add_cancel h, rfl⟩
    · exact fun k hk => .inl ⟨Nat.lt_of_lt_of_le hk (Nat.sub_le _ _), rfl⟩
  · exact .inr ⟨h, _, exec_ret_empty (by omega), rfl⟩

/-- The target of a jump to `nnn + V0` is at most 0x10FE, so nothing wraps (R140). -/
theorem jpV0_target_toNat (nnn : Addr) (b : Byte) : (zextAddr nnn + zextByte b).toNat = nnn.toNat + b.toNat := by
  rw [BitVec.toNat_add, zextAddr_toNat, zextByte_toNat]
  omega

/-! ### Skips -/

/-- What a skip leaves, before the tick: it writes only `PC` (R136). -/
def skipped (c : Prop) [Decidable c] (s : State) : State := s.setPc (if c then s.pc + 4 else s.pc + 2)

theorem complete_skip {body : State → Except Fault State} {c : Prop} [Decidable c]
    (h : body (advance s) = .ok (skipIf (decide c) (advance s))) :
    complete body s = .next ((timerTick (skipped c s)).setReport .ok) := by
  apply complete_ok
  rw [h, skipIf_eq, skipIf_advance_pc]
  rfl

theorem skipped_keeps (c : Prop) [Decidable c] (s : State) : Keeps [] [] s (skipped c s) := setPc_keeps s _

theorem skipped_skipsWhen (c : Prop) [Decidable c] (s : State) : SkipsWhen c s (skipped c s) := skipsWhen_iff.2 rfl

theorem exec_seVxVy (x y : Reg) (s : State) :
    exec (.seVxVy x y) s = .next ((timerTick (skipped (s.reg x = s.reg y) s)).setReport .ok) := by
  unfold exec execSeVxVy
  exact complete_skip rfl

theorem exec_sneVxVy (x y : Reg) (s : State) :
    exec (.sneVxVy x y) s = .next ((timerTick (skipped (s.reg x ≠ s.reg y) s)).setReport .ok) := by
  unfold exec execSneVxVy
  exact complete_skip rfl

theorem exec_seVxNn (x : Reg) (nn : Byte) (s : State) :
    exec (.seVxNn x nn) s = .next ((timerTick (skipped (s.reg x = nn) s)).setReport .ok) := by
  unfold exec execSeVxNn
  exact complete_skip rfl

theorem exec_sneVxNn (x : Reg) (nn : Byte) (s : State) :
    exec (.sneVxNn x nn) s = .next ((timerTick (skipped (s.reg x ≠ nn) s)).setReport .ok) := by
  unfold exec execSneVxNn
  exact complete_skip rfl

theorem exec_skpVx {x : Reg} {k : Fin 16} (h : (s.reg x).toNat = k.val) :
    exec (.skpVx x) s = .next ((timerTick (skipped (s.keys[k] = true) s)).setReport .ok) := by
  unfold exec execSkpVx
  apply complete_skip
  rw [advance_reg, keyPressed_of_le _ (s := advance s) k h]
  simp [Except.map]

theorem exec_sknpVx {x : Reg} {k : Fin 16} (h : (s.reg x).toNat = k.val) :
    exec (.sknpVx x) s = .next ((timerTick (skipped (s.keys[k] = false) s)).setReport .ok) := by
  unfold exec execSknpVx
  apply complete_skip
  rw [advance_reg, keyPressed_of_le _ (s := advance s) k h]
  simp [Except.map]

theorem exec_skpVx_beyond {x : Reg} (h : 15 < (s.reg x).toNat) :
    exec (.skpVx x) s = .fault (.keyIndexOutOfRange s.pc (s.reg x)) := by
  unfold exec execSkpVx
  apply complete_fault.2
  rw [advance_reg, keyPressed_of_gt _ (s := advance s) h]
  rfl

theorem exec_sknpVx_beyond {x : Reg} (h : 15 < (s.reg x).toNat) :
    exec (.sknpVx x) s = .fault (.keyIndexOutOfRange s.pc (s.reg x)) := by
  unfold exec execSknpVx
  apply complete_fault.2
  rw [advance_reg, keyPressed_of_gt _ (s := advance s) h]
  rfl

/-- The key a register names is the only one of that index. -/
theorem key_of_index {v : Byte} {k : Fin 16} (h : v.toNat = k.val) (b : Bool) (s : State) :
    (∃ j : Fin 16, j.val = v.toNat ∧ s.keys[j] = b) ↔ s.keys[k] = b := by
  constructor
  · rintro ⟨j, hj, hb⟩
    obtain rfl : j = k := Fin.ext (hj.trans h)
    exact hb
  · exact fun hb => ⟨k, h.symm, hb⟩

theorem endsAsListed_skpVx (x : Reg) (s : State) : EndsAsListed (.skpVx x) s := by
  by_cases h : (s.reg x).toNat ≤ 15
  · have hk : (s.reg x).toNat = (⟨(s.reg x).toNat, by omega⟩ : Fin 16).val := rfl
    refine .inl ⟨h, _, exec_skpVx hk, { keeps := skipped_keeps _ s, pc := ?_ }⟩
    simpa only [PcAfter, key_of_index hk] using skipped_skipsWhen _ s
  · exact .inr ⟨h, _, exec_skpVx_beyond (by omega), rfl⟩

theorem endsAsListed_sknpVx (x : Reg) (s : State) : EndsAsListed (.sknpVx x) s := by
  by_cases h : (s.reg x).toNat ≤ 15
  · have hk : (s.reg x).toNat = (⟨(s.reg x).toNat, by omega⟩ : Fin 16).val := rfl
    refine .inl ⟨h, _, exec_sknpVx hk, { keeps := skipped_keeps _ s, pc := ?_ }⟩
    simpa only [PcAfter, key_of_index hk] using skipped_skipsWhen _ s
  · exact .inr ⟨h, _, exec_sknpVx_beyond (by omega), rfl⟩

end

/-! ### Memory transfers and drawing -/

section

variable {s : State}

/-- What a store of bytes from `I` leaves, before the tick and the advance of `I` (R193, R194). -/
def stored (bs : List Byte) (s : State) : State := (advance s).setMem (s.mem.pokeBytes s.i.toNat bs)

theorem stored_keeps {writes : List Part} (hm : .memory ∈ writes) (bs : List Byte) (s : State) :
    Keeps writes [] s (stored bs s) := (keeps_advance writes [] s).setMem hm _

/-- A run of checked writes from `I` in the program/data region (R56). -/
theorem memWriteBytes_stored {bs : List Byte} (h : WritesInside s bs.length) :
    memWriteBytes s.pc (indexAddr (advance s) 0) bs (advance s) = .ok (stored bs s) :=
  memWriteBytes_eq s.pc bs (advance s) h.1 h.2

/-- The fault of a run of checked writes from `I` that is not (R56, R237). -/
theorem memWriteBytes_fault {bs : List Byte} (hb : bs ≠ []) (h : ¬ WritesInside s bs.length) :
    ∃ f, memWriteBytes s.pc (indexAddr (advance s) 0) bs (advance s) = .error f ∧
      if s.i.toNat < 0x200 then f = .addressOutOfRange s.i.toNat .write .belowProgramBoundary s.pc
      else f = .addressOutOfRange (max s.i.toNat 4096) .write .beyondSpace s.pc := by
  by_cases hi : s.i.toNat < 0x200
  · simp only [if_pos hi]
    exact ⟨_, memWriteBytes_below s.pc (advance s) hb hi, rfl⟩
  · simp only [if_neg hi]
    have hbeyond : 4096 < s.i.toNat + bs.length := by
      unfold WritesInside at h
      omega
    exact ⟨_, memWriteBytes_beyond s.pc (advance s) hb (Nat.le_of_not_lt hi) hbeyond, rfl⟩

theorem exec_ldBVx {x : Reg} (h : WritesInside s 3) :
    exec (.ldBVx x) s = .next ((timerTick (stored (bcdDigits (s.reg x)) s)).setReport .ok) := by
  unfold exec execLdBVx
  exact complete_ok (memWriteBytes_stored h)

theorem exec_ldMemVx {x : Reg} (h : WritesInside s (x.val + 1)) :
    exec (.ldMemVx x) s = .next ((timerTick (advanceIndex x (stored (regValues s x) s))).setReport .ok) := by
  unfold exec execLdMemVx
  apply complete_ok
  rw [show regValues (advance s) x = regValues s x from rfl, memWriteBytes_stored (by rwa [regValues_length])]
  rfl

theorem endsAsListed_ldBVx (x : Reg) (s : State) : EndsAsListed (.ldBVx x) s := by
  by_cases h : WritesInside s 3
  · exact .inl ⟨h, _, exec_ldBVx h, 
      { keeps := stored_keeps (.head _) _ s, stores := ⟨_, bcdDigits (s.reg x), h.1, h.2, rfl⟩ }⟩
  · obtain ⟨f, hf, hlisted⟩ := memWriteBytes_fault (bs := bcdDigits (s.reg x)) (List.cons_ne_nil _ _) h
    refine .inr ⟨h, f, ?_, hlisted⟩
    unfold exec execLdBVx
    exact complete_fault.2 hf

theorem endsAsListed_ldMemVx (x : Reg) (s : State) : EndsAsListed (.ldMemVx x) s := by
  by_cases h : WritesInside s (x.val + 1)
  · have hlen : s.i.toNat + (regValues s x).length ≤ 4096 := by rw [regValues_length]; exact h.2
    exact .inl ⟨h, _, exec_ldMemVx h,
      { keeps := (stored_keeps (.head _) _ s).setI (.tail _ (.head _)) _, stores := ⟨_, _, h.1, hlen, rfl⟩ }⟩
  · obtain ⟨f, hf, hlisted⟩ := memWriteBytes_fault (regValues_ne_nil s x) (by rwa [regValues_length])
    refine .inr ⟨h, f, ?_, hlisted⟩
    unfold exec execLdMemVx
    apply complete_fault.2
    rw [show regValues (advance s) x = regValues s x from rfl, hf]
    rfl

theorem exec_ldVxMem {x : Reg} (h : s.i.toNat + x.val + 1 ≤ 4096) :
    ∃ v : Vector Byte 16, exec (.ldVxMem x) s =
      .next ((timerTick (advanceIndex x { advance s with v := v })).setReport .ok) ∧
      (∀ k : Reg, k ≤ x → v[k] = s.mem.peek (s.i.toNat + k.val)) ∧ ∀ k : Reg, x < k → v[k] = s.reg k := by
  obtain ⟨t, ht⟩ := memLoadRegs_completes s.pc (a := s.i.toNat) (regsUpTo x) (advance s)
    (by rw [regsUpTo_length]; omega)
  obtain ⟨heq, hother, hloaded, -⟩ := memLoadRegs_ok ht (regsUpTo_nodup x)
  refine ⟨t.v, ?_, fun k hk => ?_, fun k hk => hother k fun hmem => absurd hk (Nat.not_lt.2 (mem_regsUpTo.1 hmem))⟩
  · unfold exec execLdVxMem
    apply complete_ok
    rw [show indexAddr (advance s) 0 = s.i.toNat from rfl, ht, heq]
    rfl
  · have hlt : k.val < (regsUpTo x).length := by
      rw [regsUpTo_length]
      exact Nat.lt_succ_of_le hk
    have hreg : (regsUpTo x)[k.val] = k := Fin.ext (regsUpTo_getElem x k.val hlt)
    have := hloaded k.val hlt
    rwa [hreg] at this

theorem exec_ldVxMem_beyond {x : Reg} (h : 4096 < s.i.toNat + x.val + 1) :
    exec (.ldVxMem x) s = .fault (.addressOutOfRange (max s.i.toNat 4096) .read .beyondSpace s.pc) := by
  unfold exec execLdVxMem
  apply complete_fault.2
  rw [show indexAddr (advance s) 0 = s.i.toNat from rfl,
    memLoadRegs_beyond s.pc (advance s) (regsUpTo_ne_nil x) (by rw [regsUpTo_length]; omega)]
  rfl

theorem endsAsListed_ldVxMem (x : Reg) (s : State) : EndsAsListed (.ldVxMem x) s := by
  by_cases h : s.i.toNat + x.val + 1 ≤ 4096
  · obtain ⟨v, hexec, -, hkept⟩ := exec_ldVxMem h
    have hregs : Keeps [.index] (regsWritten (.ldVxMem x)) s { advance s with v := v } := by
      refine ⟨fun r hr => hkept r ?_, ?_⟩
      · simpa [regsWritten] using hr
      · simp
    exact .inl ⟨.inr h, _, hexec, { keeps := hregs.setI (.head _) _ }⟩
  · refine .inr ⟨?_, _, exec_ldVxMem_beyond (by omega), rfl⟩
    simp only [MayComplete, ReadsInside]
    omega

/-- The cells that `DXYN` with these operands covers. -/
abbrev DrwCovers (x y : Reg) (n : Nibble) (s : State) (c : Fin 64) (r : Fin 32) : Prop :=
  SpriteCovers s (s.reg x).toNat (s.reg y).toNat n.toNat c r

theorem drawRows_inside {px py : Nat} {n : Nibble} (h : ReadsInside s n.toNat) (t : State) :
    ∃ u, drawRows s.pc s.i.toNat px py n.toNat 0 t = .ok u := by
  rcases h with h | h
  · rw [h]
    exact ⟨t, rfl⟩
  · exact drawRows_completes _ _ _ _ _ _ _ h

/-- What `DXYN` writes: the registers, of which only `VF` can differ, the covered cells, and the redraw flag (R111). -/
theorem exec_drwVxVyN {x y : Reg} {n : Nibble} (h : ReadsInside s n.toNat) :
    ∃ (v : Vector Byte 16) (fb : Framebuffer), exec (.drwVxVyN x y n) s =
      .next ((timerTick { advance s with v := v, fb := fb, redrawFlag := true }).setReport .ok) ∧
      (∀ r : Reg, r ≠ 15 → v[r] = s.reg r) ∧
      (∀ c r, DrwCovers x y n s c r → fb.cell c r = !s.fb.cell c r) ∧
      (∀ c r, ¬ DrwCovers x y n s c r → fb.cell c r = s.fb.cell c r) ∧
      ((∃ c r, DrwCovers x y n s c r ∧ s.fb.cell c r = true) → v[(15 : Reg)] = 1) ∧
      ((∀ c r, DrwCovers x y n s c r → s.fb.cell c r = false) → v[(15 : Reg)] = 0) := by
  obtain ⟨u, hu⟩ := drawRows_inside (px := (s.reg x).toNat) (py := (s.reg y).toNat) h ((advance s).setVF 0)
  obtain ⟨heq, hregs, hflip, hkeep, hset, hclear, -⟩ := drawRows_spec (by omega) hu
  simp only [DrwCovers, spriteCovers_iff]
  refine ⟨u.v, u.fb, ?_, fun r hr => ?_, hflip, hkeep, hset, fun hc => ?_⟩
  · unfold exec execDrwVxVyN
    apply complete_ok
    rw [show indexAddr (advance s) 0 = s.i.toNat from rfl, advance_reg, advance_reg, hu, heq]
    rfl
  · exact (hregs r hr).trans (reg_setReg_of_ne (advance s) 0 hr)
  · exact (hclear hc).trans (reg_setReg_same (advance s) 15 0)

theorem exec_drwVxVyN_beyond {x y : Reg} {n : Nibble} (hn : n.toNat ≠ 0) (h : 4096 < s.i.toNat + n.toNat) :
    exec (.drwVxVyN x y n) s = .fault (.addressOutOfRange (max s.i.toNat 4096) .read .beyondSpace s.pc) := by
  unfold exec execDrwVxVyN
  apply complete_fault.2
  rw [show indexAddr (advance s) 0 = s.i.toNat from rfl, drawRows_beyond _ _ _ _ _ _ _ hn h]
  rfl

theorem endsAsListed_drwVxVyN (x y : Reg) (n : Nibble) (s : State) : EndsAsListed (.drwVxVyN x y n) s := by
  by_cases h : ReadsInside s n.toNat
  · obtain ⟨v, fb, hexec, hregs, -⟩ := exec_drwVxVyN (x := x) (y := y) h
    refine .inl ⟨h, _, hexec, { keeps := ⟨fun r hr => hregs r ?_, ?_⟩, redraw := fun _ => rfl }⟩
    · simpa [regsWritten] using hr
    · simp [partsWritten]
  · have hn : n.toNat ≠ 0 ∧ 4096 < s.i.toNat + n.toNat := by
      unfold ReadsInside at h
      omega
    exact .inr ⟨h, _, exec_drwVxVyN_beyond hn.1 hn.2, rfl⟩

end

/-! ### Every instruction -/

/-- `FX0A` is held (R235). -/
theorem exec_ldVxK_held {s : State} (x : Reg) (h : noKeyPressed s = true) : exec (.ldVxK x) s = hold s := by
  unfold exec execLdVxK
  exact if_pos h

/-- What `FX0A` leaves with some key pressed, before the tick (R214). -/
def keyTaken (x : Reg) (s : State) : State :=
  { advance s with draws := s.draws + 1 }.setReg x (BitVec.ofNat 8 (chooseKey s).1.val)

theorem exec_ldVxK {s : State} (x : Reg) (h : noKeyPressed s = false) :
    exec (.ldVxK x) s = .next ((timerTick (keyTaken x s)).setReport .ok) := by
  unfold exec execLdVxK
  exact (if_neg (ne_true_of_eq_false h)).trans (complete_ok rfl)

theorem completes_ldVxK {s : State} (x : Reg) (h : noKeyPressed s = false) : Completes (.ldVxK x) s := by
  refine ⟨_, exec_ldVxK x h, { keeps := ((keeps_advance _ _ s).countDraw (.head _)).setReg (.head _) _, pc := ?_ }⟩
  have hkey : ¬ ∀ k : Fin 16, s.keys[k] = false := by
    rw [← noKeyPressed_iff, h]
    exact Bool.false_ne_true
  rw [PcAfter, if_neg hkey]
  rfl

/-- Every instruction ends as listed, but for `FX0A` with no key pressed, which is held. -/
theorem exec_cases (i : Instr) (s : State) :
    (∃ x, i = .ldVxK x ∧ noKeyPressed s = true ∧ exec i s = hold s) ∨ EndsAsListed i s := by
  cases i with
  | ldVxK x =>
    cases h : noKeyPressed s with
    | true => exact .inl ⟨x, rfl, rfl, exec_ldVxK_held x h⟩
    | false => exact .inr (.inl ⟨trivial, completes_ldVxK x h⟩)
  | ret => exact .inr (endsAsListed_ret s)
  | sys nnn => exact .inr (endsAsListed_sys nnn s)
  | call nnn => exact .inr (endsAsListed_call nnn s)
  | skpVx x => exact .inr (endsAsListed_skpVx x s)
  | sknpVx x => exact .inr (endsAsListed_sknpVx x s)
  | ldBVx x => exact .inr (endsAsListed_ldBVx x s)
  | ldMemVx x => exact .inr (endsAsListed_ldMemVx x s)
  | ldVxMem x => exact .inr (endsAsListed_ldVxMem x s)
  | drwVxVyN x y n => exact .inr (endsAsListed_drwVxVyN x y n s)
  | cls => exact .inr (.inl ⟨trivial, _, exec_cls s, { keeps := clsBody_keeps s, redraw := fun _ => rfl }⟩)
  | jp nnn => exact .inr (.inl ⟨trivial, _, rfl, { keeps := setPc_keeps s _, pc := zextAddr_toNat nnn }⟩)
  | jpV0Nnn nnn =>
    exact .inr (.inl ⟨trivial, _, rfl, { keeps := setPc_keeps s _, pc := jpV0_target_toNat nnn _ }⟩)
  | seVxNn x nn =>
    exact .inr (.inl ⟨trivial, _, exec_seVxNn x nn s, { keeps := skipped_keeps _ s, pc := skipped_skipsWhen _ s }⟩)
  | sneVxNn x nn =>
    exact .inr (.inl ⟨trivial, _, exec_sneVxNn x nn s, { keeps := skipped_keeps _ s, pc := skipped_skipsWhen _ s }⟩)
  | seVxVy x y =>
    exact .inr (.inl ⟨trivial, _, exec_seVxVy x y s, { keeps := skipped_keeps _ s, pc := skipped_skipsWhen _ s }⟩)
  | sneVxVy x y =>
    exact .inr (.inl ⟨trivial, _, exec_sneVxVy x y s, { keeps := skipped_keeps _ s, pc := skipped_skipsWhen _ s }⟩)
  | ldVxNn x _ | addVxNn x _ | ldVxVy x _ | orVxVy x _ | andVxVy x _ | xorVxVy x _ | ldVxDt x =>
    exact .inr (.inl ⟨trivial, _, rfl, { keeps := setReg_advance_keeps x _ s }⟩)
  | addVxVy x _ | subVxVy x _ | subnVxVy x _ =>
    exact .inr (.inl ⟨trivial, _, rfl, { keeps := keeps_result_then_flag x _ _ s }⟩)
  | shrVxVy x _ | shlVxVy x _ =>
    exact .inr (.inl ⟨trivial, _, rfl, { keeps := keeps_flag_then_result x _ _ s }⟩)
  | rndVxNn x _ =>
    exact .inr (.inl ⟨trivial, _, rfl, { keeps := ((keeps_advance _ _ s).countDraw (.head _)).setReg (.head _) _ }⟩)
  | ldINnn _ | addIVx _ | ldFVx _ => exact .inr (.inl ⟨trivial, _, rfl, { keeps := setI_advance_keeps s _ }⟩)
  | ldDtVx x => exact .inr (.inl ⟨trivial, _, rfl, { keeps := setTimers_advance_keeps s _ s.st }⟩)
  | ldStVx x => exact .inr (.inl ⟨trivial, _, rfl, { keeps := setTimers_advance_keeps s s.dt _ }⟩)

end Sys2Proof.Machine

/-! The rules about every instruction and every step (spec/60_exceptions.md R230 to R237, spec/10_state.md R22 to R36,
spec/20_memory.md R56), read off how an instruction ends. -/

namespace Sys2Proof.Machine

/-! ### Instructions -/

/-- Settles O12: the two ways an instruction ends as listed; the held `FX0A` goes on too. -/
theorem instructionsCompleteOrFaultAsListed : Obligations.InstructionsCompleteOrFaultAsListed := by
  intro i s
  rcases exec_cases i s with ⟨x, rfl, -, hheld⟩ | ⟨hmay, u, hu, -⟩ | ⟨hno, f, hf, hlisted⟩
  · exact ⟨fun _ => ⟨_, hheld⟩, fun h => absurd trivial h⟩
  · exact ⟨fun _ => ⟨_, hu⟩, fun h => absurd hmay h⟩
  · exact ⟨fun h => absurd h hno, fun _ => ⟨f, hf, hlisted⟩⟩

/-- An instruction that goes on committed no contract violation. -/
theorem mayComplete_of_next {i : Instr} {s t : State} (h : exec i s = .next t) : MayComplete s i := by
  by_contra hno
  obtain ⟨f, hf, -⟩ := (instructionsCompleteOrFaultAsListed i s).2 hno
  rw [hf] at h
  cases h

/-- What an instruction that goes on did: it was held, or it completed with the effect of its tables. -/
theorem exec_next {i : Instr} {s t : State} (h : exec i s = .next t) :
    (∃ x, i = .ldVxK x ∧ noKeyPressed s = true ∧ t = s.setReport .held) ∨
      ∃ u, BodyEffect i s u ∧ t = (timerTick u).setReport .ok := by
  rcases exec_cases i s with ⟨x, hi, hkeys, hheld⟩ | ⟨-, u, hu, heffect⟩ | ⟨-, f, hf, -⟩
  · exact .inl ⟨x, hi, hkeys, (Host.Outcome.next.inj (hheld.symm.trans h)).symm⟩
  · exact .inr ⟨u, heffect, (Host.Outcome.next.inj (hu.symm.trans h)).symm⟩
  · rw [hf] at h
    cases h

/-- `PC` after a step is `PC` after the body: the tick and the report write none. -/
theorem PcAfter.finish {i : Instr} {s u : State} (h : PcAfter s u i) : PcAfter s ((timerTick u).setReport .ok) i := by
  cases i <;> exact h

theorem BodyEffect.ticks {i : Instr} {s u : State} (h : BodyEffect i s u) :
    Ticks (dtAtTick s i) (stAtTick s i) s ((timerTick u).setReport .ok) := by
  rw [← h.dt, ← h.st]
  exact finish_ticks h.sound

/-- Settles O13: the frame of the body, or of the held step, which writes nothing but the report. -/
theorem everyInstructionKeepsItsFrame : Obligations.EveryInstructionKeepsItsFrame := by
  intro i s t h
  rcases exec_next h with ⟨x, rfl, -, rfl⟩ | ⟨u, hu, rfl⟩
  · simp [Keeps]
  · exact hu.keeps.finish

/-- Settles O14: `PC` as the body left it, or as the held step found it. -/
theorem everyInstructionLeavesPcAsTabled : Obligations.EveryInstructionLeavesPcAsTabled := by
  intro i s t h
  rcases exec_next h with ⟨x, rfl, hkeys, rfl⟩ | ⟨u, hu, rfl⟩
  · rw [PcAfter, if_pos ((noKeyPressed_iff s).1 hkeys)]
    rfl
  · exact hu.pc.finish

/-- Settles O15: the tick goes on from the timers the body left; a held step reports so. -/
theorem everyCompletedInstructionTicksOnce : Obligations.EveryCompletedInstructionTicksOnce := by
  intro i s t h hreport
  rcases exec_next h with ⟨x, -, -, rfl⟩ | ⟨u, hu, rfl⟩
  · exact absurd rfl hreport
  · exact ⟨rfl, hu.ticks⟩

/-! ### Steps -/

/-- A fetch gives the big-endian word of the two bytes at `PC` (R57). -/
theorem fetch_of_toNat {s : State} {w : Word} (hpc : s.pc.toNat < 0xFFF)
    (hw : w.toNat = (s.mem.peek s.pc.toNat).toNat * 256 + (s.mem.peek (s.pc.toNat + 1)).toNat) : fetch s = .ok w := by
  obtain rfl : w = Word.ofBytes (s.mem.peek s.pc.toNat) (s.mem.peek (s.pc.toNat + 1)) :=
    BitVec.eq_of_toNat_eq (hw.trans (ofBytes_toNat _ _).symm)
  exact fetch_eq hpc

/-- Settles O9: the fetched word is the one of the two bytes; the fetch faults where the rules say. -/
theorem stepRunsTheFetchedInstruction : Obligations.StepRunsTheFetchedInstruction := by
  refine fun s => ⟨fun w i hpc hw hi => ?_, fun hpc => ?_⟩
  · simp only [step, fetch_of_toNat hpc hw, hi]
  · simp only [step, fetch_beyond hpc]

/-- Settles O10: a decode failure is an advance and a tick. -/
theorem decodeFailureChangesOnlyPcAndTimers : Obligations.DecodeFailureChangesOnlyPcAndTimers := by
  intro s w e hpc hw hw'
  refine ⟨(timerTick (advance s)).setReport (.decodeFailure w s.pc), ?_, rfl, rfl, keeps_advance [] [] s,
    timerTick_ticks (advance s)⟩
  simp only [step, fetch_of_toNat hpc hw, hw', failDecode]

/-- What a step that goes on did: a decode failure, a hold, or an instruction with the effect of its tables. -/
theorem step_next {s t : State} (h : step s = .next t) : s.pc.toNat < 0xFFF ∧
    ((∃ w, t = (timerTick (advance s)).setReport (.decodeFailure w s.pc)) ∨ t = s.setReport .held ∨
      ∃ i u, BodyEffect i s u ∧ t = (timerTick u).setReport .ok) := by
  rcases step_cases s with ⟨f, -, hf⟩ | ⟨w, e, hw, -, hfail⟩ | ⟨w, i, hw, -, hexec⟩
  · rw [hf] at h
    cases h
  · refine ⟨(fetch_ok hw).1, .inl ⟨w, ?_⟩⟩
    exact (Host.Outcome.next.inj (hfail.symm.trans h)).symm
  · refine ⟨(fetch_ok hw).1, .inr ?_⟩
    rcases exec_next (hexec.symm.trans h) with ⟨x, -, -, ht⟩ | ⟨u, hu, ht⟩
    · exact .inl ht
    · exact .inr ⟨i, u, hu, ht⟩

theorem step_next_or_fault (s : State) : (∃ t, step s = .next t) ∨ ∃ f, step s = .fault f := by
  rcases step_cases s with ⟨f, -, hf⟩ | ⟨w, e, -, -, hfail⟩ | ⟨w, i, -, -, hexec⟩
  · exact .inr ⟨f, hf⟩
  · exact .inl ⟨_, hfail⟩
  · rw [hexec]
    rcases exec_cases i s with ⟨x, -, -, hheld⟩ | ⟨-, u, hu, -⟩ | ⟨-, f, hf, -⟩
    · exact .inl ⟨_, hheld⟩
    · exact .inl ⟨_, hu⟩
    · exact .inr ⟨f, hf⟩

/-- Settles O11: what a step that goes on did says what it reports. -/
theorem everyStepHasAnOutcome : Obligations.EveryStepHasAnOutcome := by
  intro s
  rcases step_next_or_fault s with ⟨t, ht⟩ | hf
  · refine .inl ⟨t, ht, ?_⟩
    obtain ⟨-, ⟨w, rfl⟩ | rfl | ⟨i, u, -, rfl⟩⟩ := step_next ht
    · exact .inr (.inr ⟨w, rfl⟩)
    · exact .inr (.inl rfl)
    · exact .inl rfl
  · exact .inr hf

/-- A tick never lowers the sound flag (R245). -/
theorem timerTick_sound_of_true {s : State} (h : s.soundFlag = true) : (timerTick s).soundFlag = true :=
  (timerTick_sound s).2 (.inl h)

/-- Settles O16: the flags and the keys in each of the three ways a step goes on. -/
theorem stepsNeverLowerTheFlags : Obligations.StepsNeverLowerTheFlags := by
  intro s t h
  obtain ⟨-, ⟨w, rfl⟩ | rfl | ⟨i, u, hu, rfl⟩⟩ := step_next h
  · exact ⟨id, fun hs => timerTick_sound_of_true (s := advance s) hs, rfl⟩
  · exact ⟨id, id, rfl⟩
  · obtain ⟨-, -, -, -, -, -, -, hkeys⟩ := hu.keeps
    exact ⟨hu.redraw, fun hs => timerTick_sound_of_true (hu.sound.trans hs), hkeys⟩

/-- The memory after a step: some bytes, maybe none, stored in the program/data region (R56). -/
theorem step_stores {s t : State} (h : step s = .next t) :
    ∃ a bs, 0x200 ≤ a ∧ a + bs.length ≤ 4096 ∧ t.mem = s.mem.pokeBytes a bs := by
  obtain ⟨-, ⟨w, rfl⟩ | rfl | ⟨i, u, hu, rfl⟩⟩ := step_next h
  · exact ⟨0x200, [], by decide, by decide, rfl⟩
  · exact ⟨0x200, [], by decide, by decide, rfl⟩
  · exact hu.stores

/-- Settles O17: every byte a step stores is at 0x200 or above. -/
theorem stepsNeverWriteTheSystemRegion : Obligations.StepsNeverWriteTheSystemRegion := by
  intro s t h b hb
  obtain ⟨a, bs, ha, -, hmem⟩ := step_stores h
  rw [hmem, Memory.peek_pokeBytes, dif_neg (by omega)]

/-! ### The invariant of a session -/

/-- Canonical memory that lists no byte of the font. -/
def Memory.AboveFont (m : Memory) : Prop := m.wf ∧ ∀ c ∈ m, 80 ≤ c.1

theorem Memory.AboveFont.pokeBytes {m : Memory} (h : m.AboveFont) {a : Nat} {bs : List Byte} (ha : 0x200 ≤ a)
    (hb : a + bs.length ≤ 4096) : (m.pokeBytes a bs).AboveFont := by
  obtain ⟨hwf, hfont⟩ := h
  refine ⟨Memory.pokeBytes_wf bs hwf hb, fun c hc => ?_⟩
  rcases Memory.mem_pokeBytes bs hc with hac | hcm
  · omega
  · exact hfont c hcm

/-- A skip past the last word of memory ends below 0x10FE. -/
theorem SkipsWhen.pc_le {c : Prop} {s t : State} (h : SkipsWhen c s t) (hpc : s.pc.toNat < 0xFFF) :
    t.pc.toNat ≤ 0x10FE := by
  obtain ⟨hskip, hnext⟩ := h
  by_cases hc : c
  · rw [hskip hc]
    bv_omega
  · rw [hnext hc]
    bv_omega

/-- The bound of R26 on `PC` after an instruction that was fetched; a return goes to an address held. -/
theorem PcAfter.pc_le {i : Instr} {s t : State} (h : PcAfter s t i) (hpc : s.pc.toNat < 0xFFF)
    (hheld : ∀ k : Fin 16, k.val < s.sp.val → s.stack[k].toNat ≤ 0x1000) : t.pc.toNat ≤ 0x10FE := by
  have le_of_next (hnext : t.pc = s.pc + 2) : t.pc.toNat ≤ 0x10FE := by
    rw [hnext]
    bv_omega
  cases i
  case sys nnn | jp nnn | call nnn =>
    have htarget : t.pc.toNat = nnn.toNat := h
    omega
  case ret =>
    obtain ⟨k, hk, htop⟩ := h
    have := hheld k (by omega)
    rw [htop]
    omega
  case jpV0Nnn nnn =>
    have htarget : t.pc.toNat = nnn.toNat + (s.reg 0).toNat := h
    omega
  case seVxNn | sneVxNn | seVxVy | sneVxVy | skpVx | sknpVx => exact SkipsWhen.pc_le h hpc
  case ldVxK =>
    simp only [PcAfter] at h
    split_ifs at h
    · rw [h]
      omega
    · exact le_of_next h
  all_goals exact le_of_next h

/-- Settles O18: the memory by the bytes stored, `PC` by its table, and a return address is held already or two past an
address that was fetched from. -/
theorem stepKeepsInvariant : Obligations.StepKeepsInvariant := by
  intro s t ⟨hwf, hfont, hpcs, hheld⟩ h
  obtain ⟨a, bs, ha, hb, hmem⟩ := step_stores h
  obtain ⟨hwf', hfont'⟩ : t.mem.AboveFont := hmem ▸ Memory.AboveFont.pokeBytes ⟨hwf, hfont⟩ ha hb
  refine ⟨hwf', hfont', ?_⟩
  obtain ⟨hpc, ⟨w, rfl⟩ | rfl | ⟨i, u, hu, rfl⟩⟩ := step_next h
  · have hnext : (s.pc + 2).toNat ≤ 0x10FE := by bv_omega
    exact ⟨hnext, hheld⟩
  · exact ⟨hpcs, hheld⟩
  · refine ⟨hu.pc.pc_le hpc hheld, fun k hk => ?_⟩
    show u.stack[k].toNat ≤ 0x1000
    rcases hu.stack k hk with ⟨hks, hold⟩ | hpushed
    · rw [hold]
      exact hheld k hks
    · rw [hpushed]
      bv_omega

/-! ### Reset and the host -/

/-- Settles O19: no memory is listed and no return address held. -/
theorem resetMeetsInvariant : Obligations.ResetMeetsInvariant :=
  ⟨reset_mem_wf, by simp [State.reset], by decide, fun k hk => absurd hk (Nat.not_lt_zero _)⟩

/-- Settles O20: a start gives memory that meets the invariant, a load within the duty keeps it, and the other actions write
no part of it. -/
theorem hostActionsKeepInvariant : Obligations.HostActionsKeepInvariant := by
  intro act s t ⟨hwf, hfont, hpc, hheld⟩ h
  cases act with
  | start initMem initFb =>
    cases h
    obtain ⟨hwf', hfont'⟩ := initialCells_wf initMem
    exact ⟨hwf', hfont', (by decide : (0x200 : Word).toNat ≤ 0x10FE), fun k hk => absurd hk (Nat.not_lt_zero _)⟩
  | load bytes a =>
    simp only [hostAct] at h
    split_ifs at h with hduty
    cases h
    obtain ⟨hwf', hfont'⟩ := Memory.AboveFont.pokeBytes ⟨hwf, hfont⟩ hduty.1 hduty.2
    exact ⟨hwf', hfont', hpc, hheld⟩
  | setKey | clearRedraw | clearSound =>
    cases h
    exact ⟨hwf, hfont, hpc, hheld⟩

/-- Every state of a session meets the invariant. -/
theorem session_inv {s : State} (h : Session s) : s.Inv := by
  induction h with
  | reset => exact resetMeetsInvariant
  | step _ hstep ih => exact stepKeepsInvariant _ _ ih hstep
  | host act _ hact ih => exact hostActionsKeepInvariant act _ _ ih hact

/-- Settles O21: memory lists no byte of the font, so each reads as the free font byte. -/
theorem fontNeverChangesInASession : Obligations.FontNeverChangesInASession := by
  intro s h a ha
  obtain ⟨-, hfont, -, -⟩ := session_inv h
  rw [Memory.peek, Memory.lookup_of_not_listed fun c hc e => absurd (hfont c hc) (by omega), Option.getD_none,
    Memory.unlisted, if_pos ha]

/-- Settles O56: the state of a start, field by field; its memory reads as `INIT_MEM` above the font. -/
theorem initializeGivesTheResetState : Obligations.InitializeGivesTheResetState := by
  refine fun initMem initFb s => ⟨s.initialized initMem initFb, rfl, fun r => ?_, rfl, rfl, rfl, fun k => ?_, rfl, rfl,
    fun a ha => ?_, fun a h1 h2 => ?_, fun c r => ?_, rfl, rfl, rfl⟩
  · simp [State.reg, State.initialized]
  · simp [State.initialized]
  · show (initialCells initMem).peek a = _
    rw [initialCells_peek, if_neg (by omega), Memory.unlisted, if_pos ha]
  · show (initialCells initMem).peek a = _
    rw [initialCells_peek, if_pos ⟨h1, h2⟩]
  · simp [State.initialized, initialFb, Framebuffer.cell]

/-- With `INIT_MEM` as an unlisted byte reads, a start lists nothing. -/
theorem initialCells_zero : initialCells (fun _ => 0) = [] := by
  rw [initialCells, List.map_eq_nil_iff, List.filter_eq_nil_iff]
  intro a ha
  have : ¬ a < Config.fontSize := Nat.not_lt.2 (List.mem_range'_1.1 ha).1
  simp only [Memory.unlisted, if_neg this, ne_eq, not_true_eq_false, decide_false, Bool.false_eq_true, not_false_eq_true]

/-- Settles O57: the two states differ in how the memory is written down only. -/
theorem resetIsAnInitialization : Obligations.ResetIsAnInitialization := by
  show Host.Outcome.next (State.initialized (fun _ => 0) Config.initFb State.reset) = _
  rw [State.initialized, initialCells_zero]
  rfl

/-- Settles O58: the fields of the reset state. -/
theorem resetRegisters : Obligations.ResetRegisters := by
  refine ⟨fun r => ?_, rfl, rfl, rfl, fun k => ?_, rfl, rfl⟩
  · simp [State.reg, State.reset]
  · simp [State.reset]

/-- Settles O59: a run of bytes within the duty, read back byte by byte; outside it the refusal. -/
theorem loadCopiesBytes : Obligations.LoadCopiesBytes := by
  refine fun bytes a s =>
    ⟨fun hduty => ⟨_, if_pos hduty, fun j hj => ?_, fun b hb => ?_, rfl⟩, fun hduty => if_neg hduty⟩
  · rw [setMem_mem, Memory.peek_pokeBytes, dif_pos (by omega)]
    simp
  · rw [setMem_mem, Memory.peek_pokeBytes, dif_neg (by omega)]

/-- Settles O60: each action is one update of one field. -/
theorem hostSetsKeysAndClearsFlags : Obligations.HostSetsKeysAndClearsFlags := by
  refine fun k pressed s => ⟨⟨_, rfl, ?_, fun j hj => ?_, rfl⟩, rfl, rfl⟩
  · simp
  · have : k.val ≠ j.val := fun e => hj (Fin.ext e.symm)
    simp [this]

end Sys2Proof.Machine

/-! What no step reads (spec/10_state.md R29, R31, R39): the outputs `ST`, the two flags and the report, and the stack slots
at or above `SP`. One relation covers both statements: two states agree when they differ in these hidden parts only, with
the outputs, or all the slots, held equal on demand. It is shown once, instruction by instruction, that states which agree step
alike. -/

namespace Sys2Proof.Machine

/-! ### States that differ in hidden parts only -/

/-- The parts of a state that no step reads, but for the stack slots below `SP`. -/
structure Hidden where
  st : Byte
  redrawFlag : Bool
  soundFlag : Bool
  report : Report
  stack : Vector Word 16

def State.hidden (s : State) : Hidden := ⟨s.st, s.redrawFlag, s.soundFlag, s.report, s.stack⟩

def State.withHidden (s : State) (h : Hidden) : State :=
  { s with st := h.st, redrawFlag := h.redrawFlag, soundFlag := h.soundFlag, report := h.report, stack := h.stack }

/-- The hidden parts of two states with the same `SP` agree: below it the slots do, and where asked for so do the outputs,
or all the slots. -/
structure Hidden.Agrees (outputs slots : Prop) (sp : Nat) (h h' : Hidden) : Prop where
  st : outputs → h'.st = h.st
  redrawFlag : outputs → h'.redrawFlag = h.redrawFlag
  soundFlag : outputs → h'.soundFlag = h.soundFlag
  report : outputs → h'.report = h.report
  held : ∀ k : Fin 16, k.val < sp → h'.stack[k] = h.stack[k]
  stack : slots → h'.stack = h.stack

/-- Two states differ in hidden parts only, and these agree. -/
def Agree (outputs slots : Prop) (s s' : State) : Prop :=
  ∃ h, s' = s.withHidden h ∧ s.hidden.Agrees outputs slots s.sp.val h

/-- Two runs of a body end in related states or with the same fault. -/
def EndAlike (R : State → State → Prop) : Except Fault State → Except Fault State → Prop
  | .ok u, .ok u' => R u u'
  | .error f, .error f' => f' = f
  | _, _ => False

/-- Two answers are related states or the same fault. -/
def AnswerAlike (R : State → State → Prop) : Result → Result → Prop
  | .next t, .next t' => R t t'
  | .fault f, .fault f' => f' = f
  | _, _ => False

section

variable {outputs slots : Prop} {s s' : State}

/-- An update that neither reads nor writes a hidden part, nor `SP`. -/
theorem Agree.update (h : Agree outputs slots s s') (f : State → State)
    (hcomm : ∀ hd, f (s.withHidden hd) = (f s).withHidden hd) (hhidden : (f s).hidden = s.hidden)
    (hsp : (f s).sp = s.sp) : Agree outputs slots (f s) (f s') := by
  obtain ⟨hd, rfl, hag⟩ := h
  refine ⟨hd, hcomm hd, ?_⟩
  rw [hhidden, hsp]
  exact hag

theorem Agree.setReg (h : Agree outputs slots s s') (x : Reg) (b : Byte) :
    Agree outputs slots (s.setReg x b) (s'.setReg x b) := h.update (·.setReg x b) (fun _ => rfl) rfl rfl

theorem Agree.setMem (h : Agree outputs slots s s') (m : Memory) : Agree outputs slots (s.setMem m) (s'.setMem m) :=
  h.update (·.setMem m) (fun _ => rfl) rfl rfl

theorem Agree.setFb (h : Agree outputs slots s s') (fb : Framebuffer) : Agree outputs slots (s.setFb fb) (s'.setFb fb) :=
  h.update (·.setFb fb) (fun _ => rfl) rfl rfl

theorem Agree.skipIf (h : Agree outputs slots s s') (c : Bool) : Agree outputs slots (skipIf c s) (skipIf c s') := by
  cases c
  · exact h
  · exact h.update (fun t => t.setPc (t.pc + 2)) (fun _ => rfl) rfl rfl

theorem Agree.advance (h : Agree outputs slots s s') : Agree outputs slots (advance s) (advance s') :=
  h.update Machine.advance (fun _ => rfl) rfl rfl

theorem Agree.advanceIndex (h : Agree outputs slots s s') (x : Reg) :
    Agree outputs slots (advanceIndex x s) (advanceIndex x s') := h.update (Machine.advanceIndex x) (fun _ => rfl) rfl rfl

theorem Agree.raiseRedraw (h : Agree outputs slots s s') : Agree outputs slots s.raiseRedraw s'.raiseRedraw := by
  obtain ⟨hd, rfl, hag⟩ := h
  exact ⟨{ hd with redrawFlag := true }, rfl, { hag with redrawFlag := fun _ => rfl }⟩

theorem Agree.setSt (h : Agree outputs slots s s') (b : Byte) : Agree outputs slots (s.setSt b) (s'.setSt b) := by
  obtain ⟨hd, rfl, hag⟩ := h
  exact ⟨{ hd with st := b }, rfl, { hag with st := fun _ => rfl }⟩

theorem Agree.setReport (h : Agree outputs slots s s') (r : Report) :
    Agree outputs slots (s.setReport r) (s'.setReport r) := by
  obtain ⟨hd, rfl, hag⟩ := h
  exact ⟨{ hd with report := r }, rfl, { hag with report := fun _ => rfl }⟩

theorem Agree.timerTick (h : Agree outputs slots s s') : Agree outputs slots (timerTick s) (timerTick s') := by
  obtain ⟨hd, rfl, hag⟩ := h
  refine ⟨(Machine.timerTick (s.withHidden hd)).hidden, rfl, { hag with st := fun ho => ?_, soundFlag := fun ho => ?_ }⟩
  · exact congrArg countDown (hag.st ho)
  · have hst : hd.st = s.st := hag.st ho
    have hsound : hd.soundFlag = s.soundFlag := hag.soundFlag ho
    show (hd.soundFlag || (hd.st ≠ 0 && countDown hd.st = 0)) = (s.soundFlag || (s.st ≠ 0 && countDown s.st = 0))
    rw [hst, hsound]

/-- States that agree are fetched from, and complete an instruction, alike. -/
theorem complete_alike {body body' : State → Except Fault State}
    (hb : EndAlike (Agree outputs slots) (body (advance s)) (body' (advance s'))) :
    AnswerAlike (Agree outputs slots) (complete body s) (complete body' s') := by
  unfold complete
  generalize body (advance s) = r at hb ⊢
  generalize body' (advance s') = r' at hb ⊢
  cases r <;> cases r'
  case ok.ok => exact (Agree.timerTick hb).setReport .ok
  all_goals exact hb

theorem EndAlike.map {r r' : Except Fault State} (h : EndAlike (Agree outputs slots) r r') {f : State → State}
    (hf : ∀ t t', Agree outputs slots t t' → Agree outputs slots (f t) (f t')) :
    EndAlike (Agree outputs slots) (r.map f) (r'.map f) := by
  cases r <;> cases r'
  case ok.ok => exact hf _ _ h
  all_goals exact h

/-! ### The shared operations -/

theorem Agree.mem_eq (h : Agree outputs slots s s') : s'.mem = s.mem := by
  obtain ⟨hd, rfl, -⟩ := h
  rfl

theorem Agree.fb_eq (h : Agree outputs slots s s') : s'.fb = s.fb := by
  obtain ⟨hd, rfl, -⟩ := h
  rfl

theorem memWriteBytes_alike (h : Agree outputs slots s s') (pc0 : Word) (a : Nat) (bs : List Byte) :
    EndAlike (Agree outputs slots) (memWriteBytes pc0 a bs s) (memWriteBytes pc0 a bs s') := by
  induction bs generalizing a s s' with
  | nil => exact h
  | cons b rest ih =>
    simp only [memWriteBytes, memWrite, h.mem_eq]
    split_ifs
    · rfl
    · rfl
    · exact ih (h.setMem _) _

theorem memLoadRegs_alike (h : Agree outputs slots s s') (pc0 : Word) (a : Nat) (ks : List Reg) :
    EndAlike (Agree outputs slots) (memLoadRegs pc0 a ks s) (memLoadRegs pc0 a ks s') := by
  induction ks generalizing a s s' with
  | nil => exact h
  | cons k rest ih =>
    simp only [memLoadRegs, memRead_eq, h.mem_eq]
    split_ifs
    · rfl
    · exact ih (h.setReg k _) _

theorem drawPixel_agree (h : Agree outputs slots s s') (c : Fin 64) (r : Fin 32) :
    Agree outputs slots (drawPixel c r s) (drawPixel c r s') := by
  unfold drawPixel
  rw [h.fb_eq]
  split_ifs
  · exact (h.setReg 15 1).setFb _
  · exact h.setFb _

theorem drawColumns_agree (h : Agree outputs slots s s') (b : Byte) (px : Nat) (row : Fin 32) (k c : Nat) :
    Agree outputs slots (drawColumns b px row k c s) (drawColumns b px row k c s') := by
  induction k generalizing c s s' with
  | zero => exact h
  | succ k ih =>
    simp only [drawColumns]
    split_ifs
    · exact ih (drawPixel_agree h _ _) _
    · exact ih h _

theorem drawRows_alike (h : Agree outputs slots s s') (pc0 : Word) (base px py k r : Nat) :
    EndAlike (Agree outputs slots) (drawRows pc0 base px py k r s) (drawRows pc0 base px py k r s') := by
  induction k generalizing r s s' with
  | zero => exact h
  | succ k ih =>
    simp only [drawRows, memRead_eq, h.mem_eq]
    split_ifs
    · rfl
    · exact ih (drawColumns_agree h _ _ _ _ _) _

theorem complete_callTo_alike (h : Agree outputs slots s s') (target : Word) :
    AnswerAlike (Agree outputs slots) (complete (callTo s.pc target) s) (complete (callTo s'.pc target) s') := by
  obtain ⟨hd, rfl, hag⟩ := h
  by_cases hsp : s.sp.val < 16
  · rw [complete_callTo target hsp, complete_callTo (s := s.withHidden hd) target hsp]
    refine (Agree.timerTick ?_).setReport .ok
    refine ⟨{ hd with stack := hd.stack.set s.sp.val (s.pc + 2) }, rfl,
      { hag with held := fun k hk => ?_, stack := fun hs => ?_ }⟩
    · refine (called_stack (s := s.withHidden hd) target hsp k).trans (Eq.trans ?_ (called_stack target hsp k).symm)
      by_cases htop : k.val = s.sp.val
      · exact (if_pos htop).trans (if_pos htop).symm
      · have hk' : k.val < s.sp.val + 1 := hk
        exact (if_neg htop).trans ((hag.held k (by omega)).trans (if_neg htop).symm)
    · exact congrArg (·.set s.sp.val (s.pc + 2)) (hag.stack hs)
  · have hfull : s.sp.val = 16 := by omega
    rw [complete_callTo_full target hfull, complete_callTo_full (s := s.withHidden hd) target hfull]
    rfl

theorem exec_ret_alike (h : Agree outputs slots s s') :
    AnswerAlike (Agree outputs slots) (exec .ret s) (exec .ret s') := by
  obtain ⟨hd, rfl, hag⟩ := h
  by_cases hsp : 0 < s.sp.val
  · have htop : hd.stack[s.sp.val - 1] = s.stack[s.sp.val - 1] :=
      hag.held ⟨s.sp.val - 1, by omega⟩ (Nat.sub_lt hsp Nat.one_pos)
    have hagree : Agree outputs slots (returned s hsp) (returned (s.withHidden hd) hsp) := by
      refine ⟨hd, ?_, { hag with held := fun k hk => hag.held k (Nat.lt_of_lt_of_le hk (Nat.sub_le _ _)) }⟩
      simp only [returned, State.withHidden, htop]
    rw [exec_ret hsp, exec_ret (s := s.withHidden hd) hsp]
    exact hagree.timerTick.setReport .ok
  · have hempty : s.sp.val = 0 := by omega
    rw [exec_ret_empty hempty, exec_ret_empty (s := s.withHidden hd) hempty]
    rfl

/-- An instruction whose body is an update that neither reads nor writes a hidden part. -/
theorem complete_update_alike (h : Agree outputs slots s s') (f : State → State)
    (hcomm : ∀ t hd, f (State.withHidden t hd) = (f t).withHidden hd) (hhidden : ∀ t, (f t).hidden = t.hidden)
    (hsp : ∀ t, (f t).sp = t.sp) :
    AnswerAlike (Agree outputs slots) (complete (fun t => .ok (f t)) s) (complete (fun t => .ok (f t)) s') :=
  complete_alike (h.advance.update f (hcomm _) (hhidden _) (hsp _))

/-- The key skips: the test reads a register and the keys. -/
theorem keyPressed_alike (h : Agree outputs slots s s') (x : Reg) (g : Bool → Bool) :
    EndAlike (Agree outputs slots) ((keyPressed s.pc (s.reg x) s).map fun p => skipIf (g p) (advance s))
      ((keyPressed s'.pc (s'.reg x) s').map fun p => skipIf (g p) (advance s')) := by
  have hsame : keyPressed s'.pc (s'.reg x) s' = keyPressed s.pc (s.reg x) s := by
    obtain ⟨hd, rfl, -⟩ := h
    rfl
  rw [hsame]
  cases keyPressed s.pc (s.reg x) s with
  | error f => rfl
  | ok p => exact h.advance.skipIf (g p)

theorem exec_ldVxK_alike (h : Agree outputs slots s s') (x : Reg) :
    AnswerAlike (Agree outputs slots) (exec (.ldVxK x) s) (exec (.ldVxK x) s') := by
  have hkeys : noKeyPressed s' = noKeyPressed s := by
    obtain ⟨hd, rfl, -⟩ := h
    rfl
  cases hno : noKeyPressed s with
  | true =>
    rw [exec_ldVxK_held x hno, exec_ldVxK_held x (hkeys.trans hno)]
    exact h.setReport .held
  | false =>
    rw [exec_ldVxK x hno, exec_ldVxK x (hkeys.trans hno)]
    exact (h.update (keyTaken x) (fun _ => rfl) rfl rfl).timerTick.setReport .ok

/-- States that agree run every instruction alike. -/
theorem exec_alike (h : Agree outputs slots s s') (i : Instr) :
    AnswerAlike (Agree outputs slots) (exec i s) (exec i s') := by
  have hform := h
  obtain ⟨hd, rfl, -⟩ := hform
  have hadvance := h.advance
  unfold exec
  cases i with
  | ret => exact exec_ret_alike h
  | sys nnn | call nnn => exact complete_callTo_alike h (zextAddr nnn)
  | skpVx x => exact complete_alike (keyPressed_alike h x id)
  | sknpVx x => exact complete_alike (keyPressed_alike h x not)
  | ldVxK x => exact exec_ldVxK_alike h x
  | ldBVx x => exact complete_alike (memWriteBytes_alike hadvance _ _ _)
  | ldMemVx x => exact complete_alike ((memWriteBytes_alike hadvance _ _ _).map fun t t' ht => ht.advanceIndex x)
  | ldVxMem x => exact complete_alike ((memLoadRegs_alike hadvance _ _ _).map fun t t' ht => ht.advanceIndex x)
  | drwVxVyN x y n =>
    exact complete_alike ((drawRows_alike (hadvance.setReg 15 0) _ _ _ _ _ _).map fun t t' ht => ht.raiseRedraw)
  | cls => exact complete_alike ((hadvance.setFb _).raiseRedraw)
  | ldStVx x => exact complete_alike (hadvance.setSt _)
  | seVxNn | sneVxNn | seVxVy | sneVxVy => exact complete_alike (hadvance.skipIf _)
  | jp | jpV0Nnn | ldVxNn | addVxNn | ldVxVy | orVxVy | andVxVy | xorVxVy | addVxVy | subVxVy | shrVxVy | subnVxVy
  | shlVxVy | rndVxNn | ldINnn | addIVx | ldFVx | ldVxDt | ldDtVx =>
    exact complete_update_alike h _ (fun _ _ => rfl) (fun _ => rfl) fun _ => rfl

/-- States that agree step alike: the fetch and the decoding read no hidden part either. -/
theorem step_alike (h : Agree outputs slots s s') : AnswerAlike (Agree outputs slots) (step s) (step s') := by
  have hfetch : fetch s' = fetch s := by
    obtain ⟨hd, rfl, -⟩ := h
    rfl
  rcases step_cases s with ⟨f, hf, hs⟩ | ⟨w, e, hw, hdec, hs⟩ | ⟨w, i, hw, hdec, hs⟩
  · rw [hs, step, hfetch, hf]
    rfl
  · rw [hs, step, hfetch, hw]
    simp only [hdec]
    have hpc : s'.pc = s.pc := by
      obtain ⟨hd, rfl, -⟩ := h
      rfl
    rw [failDecode, failDecode, hpc]
    exact h.advance.timerTick.setReport _
  · rw [hs, step, hfetch, hw]
    simp only [hdec]
    exact exec_alike h i

theorem AnswerAlike.next {R : State → State → Prop} {r' : Result} {t : State} (h : AnswerAlike R (.next t) r') :
    ∃ t', r' = .next t' ∧ R t t' := by
  cases r' with
  | next t' => exact ⟨t', rfl, h⟩
  | fault f' => exact h.elim
  | refused e => exact h.elim

theorem AnswerAlike.fault {R : State → State → Prop} {r' : Result} {f : Fault} (h : AnswerAlike R (.fault f) r') :
    r' = .fault f := by
  cases r' with
  | next t' => exact h.elim
  | fault f' => exact congrArg _ h
  | refused e => exact h.elim

end

/-- Settles O22: the two states agree with all the slots held equal, so their next states do. -/
theorem outputsNeverInfluenceExecution : Obligations.OutputsNeverInfluenceExecution := by
  intro s st redraw sound rep
  have hagree : Agree False True s { s with st := st, redrawFlag := redraw, soundFlag := sound, report := rep } :=
    ⟨⟨st, redraw, sound, rep, s.stack⟩, rfl,
      ⟨False.elim, False.elim, False.elim, False.elim, fun _ _ => rfl, fun _ => rfl⟩⟩
  have hstep := step_alike hagree
  refine ⟨fun t ht => ?_, fun f hf => ?_⟩
  · rw [ht] at hstep
    obtain ⟨t', ht', hd, rfl, hag⟩ := hstep.next
    have hstack : hd.stack = t.stack := hag.stack trivial
    exact ⟨hd.st, hd.redrawFlag, hd.soundFlag, hd.report, by rw [ht', State.withHidden, hstack]⟩
  · rw [hf] at hstep
    exact hstep.fault

/-- Settles O23: the two states agree with the outputs held equal, so their next states do. -/
theorem staleStackSlotsAreNeverRead : Obligations.StaleStackSlotsAreNeverRead := by
  intro s stack hstack
  have hagree : Agree True False s { s with stack := stack } :=
    ⟨⟨s.st, s.redrawFlag, s.soundFlag, s.report, stack⟩, rfl,
      ⟨fun _ => rfl, fun _ => rfl, fun _ => rfl, fun _ => rfl, hstack, False.elim⟩⟩
  have hstep := step_alike hagree
  refine ⟨fun t ht => ?_, fun f hf => ?_⟩
  · rw [ht] at hstep
    obtain ⟨t', ht', ⟨st, redraw, sound, rep, stack'⟩, rfl, hag⟩ := hstep.next
    obtain rfl : st = t.st := hag.st trivial
    obtain rfl : redraw = t.redrawFlag := hag.redrawFlag trivial
    obtain rfl : sound = t.soundFlag := hag.soundFlag trivial
    obtain rfl : rep = t.report := hag.report trivial
    exact ⟨stack', ht', hag.held⟩
  · rw [hf] at hstep
    exact hstep.fault

end Sys2Proof.Machine

/-! The display and the control flow (spec/40_display.md R111 to R115, spec/41_control_flow.md R130 to R140): what each
instruction leaves, from the closed form of its step; its `PC`, frame and tick are those of every instruction. -/

namespace Sys2Proof.Machine

/-- `PC`, the frame and the tick of an instruction that completes. -/
theorem framed_of_next {i : Instr} {s t : State} (h : exec i s = .next t) (hreport : t.report = .ok) :
    PcAfter s t i ∧ Keeps (partsWritten i) (regsWritten i) s t ∧ Ticks (dtAtTick s i) (stAtTick s i) s t :=
  ⟨everyInstructionLeavesPcAsTabled i s t h, everyInstructionKeepsItsFrame i s t h,
    (everyCompletedInstructionTicksOnce i s t h (by rw [hreport]; exact Report.noConfusion)).2⟩

/-- The fault of an instruction outside its conditions is the one listed. -/
theorem exec_eq_fault {i : Instr} {s : State} {f : Fault} (hno : ¬ MayComplete s i)
    (hlisted : ∀ g, FaultOf s g i → g = f) : exec i s = .fault f := by
  obtain ⟨g, hg, hfault⟩ := (instructionsCompleteOrFaultAsListed i s).2 hno
  rw [hg, hlisted g hfault]

/-! ### Display -/

/-- Settles O25: the closed form of the draw, read cell by cell. -/
theorem drwFlipsCoveredCells : Obligations.DrwFlipsCoveredCells := by
  intro x y n s h
  obtain ⟨v, fb, hexec, -, hflip, hkeep, hset, hclear⟩ := exec_drwVxVyN (x := x) (y := y) h
  exact ⟨_, hexec, hflip, hkeep, hset, hclear, rfl, framed_of_next hexec rfl⟩

/-- Settles O26: the fault listed for a sprite that passes the end of memory. -/
theorem drwFaultsPastMemory : Obligations.DrwFaultsPastMemory := fun _ _ _ _ hn h =>
  exec_drwVxVyN_beyond (fun e => hn (BitVec.eq_of_toNat_eq e)) h

/-- What a sprite covers depends on the bytes from `I` alone. -/
theorem spriteCovers_congr {s u : State} (hmem : ∀ a, u.mem.peek a = s.mem.peek a) (hi : u.i = s.i) (px py n : Nat)
    (c : Fin 64) (r : Fin 32) : SpriteCovers u px py n c r ↔ SpriteCovers s px py n c r := by
  simp only [SpriteCovers, hmem, hi]

/-- Settles O27: the second draw flips the cells the first one flipped; it meets a set cell exactly where the first draw set
one. -/
theorem drawingTwiceRestoresTheFramebuffer : Obligations.DrawingTwiceRestoresTheFramebuffer := by
  intro x y n s t u hexec hfb hmem hi hx hy
  have hin : ReadsInside s n.toNat := mayComplete_of_next hexec
  obtain ⟨v, fb, hfirst, -, hflip, hkeep, -⟩ := exec_drwVxVyN (x := x) (y := y) hin
  obtain rfl := Host.Outcome.next.inj (hfirst.symm.trans hexec)
  obtain ⟨v', fb', hsecond, -, hflip', hkeep', hset', hclear'⟩ := exec_drwVxVyN (s := u) (x := x) (y := y) (n := n)
    (by rw [ReadsInside, hi]; exact hin)
  simp only [DrwCovers, hx, hy, spriteCovers_congr hmem hi, hfb] at hflip' hkeep' hset' hclear'
  refine ⟨_, hsecond, Framebuffer.ext_cell fun c r => ?_, ?_⟩
  · show fb'.cell c r = s.fb.cell c r
    by_cases hc : DrwCovers x y n s c r
    · rw [hflip' c r hc]
      exact (congrArg _ (hflip c r hc)).trans (Bool.not_not _)
    · rw [hkeep' c r hc]
      exact hkeep c r hc
  · constructor
    · intro hv
      by_contra hnone
      have hdark : ∀ c r, DrwCovers x y n s c r → fb.cell c r = false := fun c r hc => by
        by_contra hlit
        have hs : s.fb.cell c r = false := by simpa [hflip c r hc] using hlit
        exact hnone ⟨c, r, hs, eq_true_of_ne_false hlit⟩
      have hv0 : v'[(15 : Reg)] = 0 := hclear' hdark
      exact absurd (hv0.symm.trans hv) (by decide)
    · rintro ⟨c, r, hs, ht⟩
      refine hset' ⟨c, r, ?_, ht⟩
      by_contra hc
      exact Bool.false_ne_true (hs.symm.trans ((hkeep c r hc).symm.trans ht))

/-! ### Control flow -/

theorem exec_jpV0Nnn (nnn : Addr) (s : State) : exec (.jpV0Nnn nnn) s =
    .next ((timerTick ((advance s).setPc (zextAddr nnn + zextByte (s.reg 0)))).setReport .ok) := rfl

/-- Settles O29: a step that writes only `PC`, as its table says. -/
theorem jpV0AddsV0 : Obligations.JpV0AddsV0 := fun nnn s =>
  ⟨_, exec_jpV0Nnn nnn s, framed_of_next (exec_jpV0Nnn nnn s) rfl⟩

/-- Settles O30: both instructions are the push of the post-fetch counter and a jump. -/
theorem callsPushTheReturnAddress : Obligations.CallsPushTheReturnAddress := by
  intro nnn s i hi
  have hcall : exec i s = complete (callTo s.pc (zextAddr nnn)) s := by
    simp only [List.mem_cons, List.not_mem_nil, or_false] at hi
    rcases hi with rfl | rfl
    · rfl
    · rfl
  rw [hcall]
  refine ⟨fun top htop => ?_, complete_callTo_full _⟩
  have h : s.sp.val < 16 := by omega
  refine ⟨_, complete_callTo _ h, rfl, ?_, fun k hk => ?_, zextAddr_toNat nnn, (called_keeps _ h).finish,
    finish_ticks (u := called _ s h) rfl⟩
  · exact (called_stack (zextAddr nnn) h top).trans (if_pos htop.symm)
  · exact (called_stack (zextAddr nnn) h k).trans (if_neg fun e => hk (Fin.ext (e.trans htop)))

/-- Settles O31: the closed form of a return; its frame and tick are those of every instruction. -/
theorem retPopsTheReturnAddress : Obligations.RetPopsTheReturnAddress := by
  refine fun s => ⟨fun top htop => ?_, exec_ret_empty⟩
  have h : 0 < s.sp.val := by omega
  have hsp : s.sp.val - 1 = top.val := by omega
  obtain ⟨-, hkeeps, hticks⟩ := framed_of_next (exec_ret h) rfl
  refine ⟨_, exec_ret h, hsp, rfl, ?_, hkeeps, hticks⟩
  simp [returned, hsp]

/-- Settles O32: the return pops the slot the call pushed, and the call wrote no other. -/
theorem returnUndoesCall : Obligations.ReturnUndoesCall := by
  intro nnn s t u hcall hsp hstack
  have h : s.sp.val < 16 := mayComplete_of_next hcall
  obtain ⟨t', ht', htsp, htop, hslots, -⟩ :=
    (callsPushTheReturnAddress nnn s (.call nnn) (.head _)).1 ⟨s.sp.val, h⟩ rfl
  obtain rfl := Host.Outcome.next.inj (hcall.symm.trans ht')
  obtain ⟨w, hret, hwsp, hwstack, hwpc, -⟩ := (retPopsTheReturnAddress u).1 ⟨s.sp.val, h⟩ (by rw [hsp, htsp])
  refine ⟨w, hret, ?_, Fin.ext hwsp, fun k hk => ?_⟩
  · rw [hwpc, hstack, htop]
  · rw [hwstack, hstack, hslots k fun e => absurd hk (by simp [e])]

section

variable (c : Prop) [Decidable c] (s : State)

/-- How a skip ends. -/
theorem skipped_finish : SkipsWhen c s ((timerTick (skipped c s)).setReport .ok) ∧
    Keeps [] [] s ((timerTick (skipped c s)).setReport .ok) ∧
    Ticks s.dt s.st s ((timerTick (skipped c s)).setReport .ok) :=
  ⟨skipped_skipsWhen c s, (skipped_keeps c s).finish, finish_ticks (u := skipped c s) rfl⟩

end

/-- Settles O34: a skip on the condition of each rule. -/
theorem skipsOnRegisters : Obligations.SkipsOnRegisters := fun x y s =>
  ⟨⟨_, exec_seVxVy x y s, skipped_finish _ s⟩, ⟨_, exec_sneVxVy x y s, skipped_finish _ s⟩⟩

/-- Settles O53: a skip on the state of the key `Vx` names; a value that names none faults. -/
theorem keySkipsTestTheKey : Obligations.KeySkipsTestTheKey := fun _ s =>
  ⟨fun _ hk => ⟨⟨_, exec_skpVx hk, skipped_finish _ s⟩, ⟨_, exec_sknpVx hk, skipped_finish _ s⟩⟩,
    fun h => ⟨exec_skpVx_beyond h, exec_sknpVx_beyond h⟩⟩

end Sys2Proof.Machine

/-! The arithmetic with a flag, the index register, the memory transfers and the input (spec/42_register_alu.md R166 to R171,
spec/43_index_memory.md R191 to R196, spec/44_timers_input.md R210 to R216), from the closed form of each step. -/

namespace Sys2Proof.Machine

/-! ### Arithmetic with a flag -/

section

variable (x y : Reg) (s : State)

theorem exec_addVxVy : exec (.addVxVy x y) s =
    .next ((timerTick (((advance s).setReg x (addByte (s.reg x) (s.reg y))).setVF
      (flagByte (carryOf (s.reg x) (s.reg y))))).setReport .ok) := rfl

theorem exec_subVxVy : exec (.subVxVy x y) s =
    .next ((timerTick (((advance s).setReg x (subByte (s.reg x) (s.reg y))).setVF
      (flagByte (notBorrowOf (s.reg x) (s.reg y))))).setReport .ok) := rfl

theorem exec_subnVxVy : exec (.subnVxVy x y) s =
    .next ((timerTick (((advance s).setReg x (subByte (s.reg y) (s.reg x))).setVF
      (flagByte (notBorrowOf (s.reg y) (s.reg x))))).setReport .ok) := rfl

theorem exec_shrVxVy : exec (.shrVxVy x y) s =
    .next ((timerTick (shiftRightReg x (advance s))).setReport .ok) := rfl

theorem exec_shlVxVy : exec (.shlVxVy x y) s =
    .next ((timerTick (shiftLeftReg x (advance s))).setReport .ok) := rfl

theorem exec_rndVxNn (nn : Byte) : exec (.rndVxNn x nn) s = .next ((timerTick
    ({ advance s with draws := s.draws + 1 }.setReg x (Config.drawByte s.draws &&& nn))).setReport .ok) := rfl

end

/-- The result of an operation that writes `VF` last is kept unless it is in `VF` (D10). -/
theorem reg_setVF_of_ne (s : State) {x : Reg} (a b : Byte) (h : x ≠ 15) : ((s.setReg x a).setVF b).reg x = a := by
  rw [setVF_eq, reg_setReg_of_ne _ _ h, reg_setReg_same]

/-- Settles O38: the sum, and the carry written last. -/
theorem addSetsCarry : Obligations.AddSetsCarry := by
  refine fun x y s => ⟨_, exec_addVxVy x y s, fun hx => ?_, ?_, framed_of_next (exec_addVxVy x y s) rfl⟩
  · rw [setReport_reg, timerTick_reg, reg_setVF_of_ne _ _ _ hx, addByte_toNat]
  · rw [setReport_reg, timerTick_reg, setVF_eq, reg_setReg_same, flagByte_carryOf]

/-- Settles O39: the differences, and the flag written last. -/
theorem subtractionsSetNotBorrow : Obligations.SubtractionsSetNotBorrow := by
  refine fun x y s => ⟨⟨_, exec_subVxVy x y s, fun hx => ?_, ?_, framed_of_next (exec_subVxVy x y s) rfl⟩,
    ⟨_, exec_subnVxVy x y s, fun hx => ?_, ?_, framed_of_next (exec_subnVxVy x y s) rfl⟩⟩
  · rw [setReport_reg, timerTick_reg, reg_setVF_of_ne _ _ _ hx, subByte_toNat]
  · rw [setReport_reg, timerTick_reg, setVF_eq, reg_setReg_same, flagByte_notBorrowOf]
  · rw [setReport_reg, timerTick_reg, reg_setVF_of_ne _ _ _ hx, subByte_toNat]
  · rw [setReport_reg, timerTick_reg, setVF_eq, reg_setReg_same, flagByte_notBorrowOf]

/-- A shift of a register that is not `VF`: the flag write does not reach the operand. -/
theorem shiftRightReg_reg {x : Reg} (hx : x ≠ 15) (s : State) :
    (shiftRightReg x s).reg x = shiftRight (s.reg x) ∧ (shiftRightReg x s).reg 15 = shiftedOutRight (s.reg x) := by
  simp [shiftRightReg, reg_setReg_of_ne _ _ hx, reg_setReg_of_ne _ _ hx.symm]

theorem shiftLeftReg_reg {x : Reg} (hx : x ≠ 15) (s : State) :
    (shiftLeftReg x s).reg x = shiftLeft (s.reg x) ∧ (shiftLeftReg x s).reg 15 = shiftedOutLeft (s.reg x) := by
  simp [shiftLeftReg, reg_setReg_of_ne _ _ hx, reg_setReg_of_ne _ _ hx.symm]

/-- A shift of `VF` shifts the flag just written (D9). -/
theorem shiftRightReg_VF (s : State) : (shiftRightReg 15 s).reg 15 = 0 := by
  have hflag : (shiftRightReg 15 s).reg 15 = shiftRight (shiftedOutRight (s.reg 15)) := by simp [shiftRightReg]
  apply BitVec.eq_of_toNat_eq
  rw [hflag, shiftRight_toNat, shiftedOutRight_toNat]
  show _ = 0
  omega

theorem shiftLeftReg_VF (s : State) : (shiftLeftReg 15 s).reg 15 = if 128 ≤ (s.reg 15).toNat then 2 else 0 := by
  have hflag : (shiftLeftReg 15 s).reg 15 = shiftLeft (shiftedOutLeft (s.reg 15)) := by simp [shiftLeftReg]
  have hlt := (s.reg 15).isLt
  apply BitVec.eq_of_toNat_eq
  rw [hflag, shiftLeft_toNat, shiftedOutLeft_toNat]
  split_ifs with hbit
  · show _ = 2
    omega
  · show _ = 0
    omega

/-- Settles O40: a shift of another register leaves both results; a shift of `VF` shifts the flag. -/
theorem shiftsSetShiftedOutBit : Obligations.ShiftsSetShiftedOutBit := by
  refine fun x y s => ⟨⟨_, exec_shrVxVy x y s, fun hx => ?_, fun hx => ?_, framed_of_next (exec_shrVxVy x y s) rfl⟩,
    ⟨_, exec_shlVxVy x y s, fun hx => ?_, fun hx => ?_, framed_of_next (exec_shlVxVy x y s) rfl⟩⟩
  · obtain ⟨hres, hflag⟩ := shiftRightReg_reg hx (advance s)
    simp only [setReport_reg, timerTick_reg, hres, hflag, shiftRight_toNat, shiftedOutRight_toNat, advance_reg, and_self]
  · subst hx
    exact shiftRightReg_VF (advance s)
  · obtain ⟨hres, hflag⟩ := shiftLeftReg_reg hx (advance s)
    simp only [setReport_reg, timerTick_reg, hres, hflag, shiftLeft_toNat, shiftedOutLeft_toNat, advance_reg, and_self]
  · subst hx
    exact shiftLeftReg_VF (advance s)

/-- Settles O41: the drawn byte masked, whatever it is. -/
theorem rndMasksADrawnByte : Obligations.RndMasksADrawnByte := by
  refine fun x nn s => ⟨_, exec_rndVxNn x s nn, fun k _ => ?_, rfl, framed_of_next (exec_rndVxNn x s nn) rfl⟩
  rw [setReport_reg, timerTick_reg, reg_setReg_same, BitVec.getLsbD_and]

/-! ### The index register -/

theorem exec_addIVx_completes (x : Reg) (s : State) : ∃ t, exec (.addIVx x) s = .next t ∧
    t.i = s.i + zextByte (s.reg x) ∧ t.pc = s.pc + 2 ∧ Keeps [.index] [] s t ∧ Ticks s.dt s.st s t := by
  unfold exec execAddIVx
  exact complete_of_setI rfl

theorem exec_ldFVx_completes (x : Reg) (s : State) : ∃ t, exec (.ldFVx x) s = .next t ∧
    t.i = glyphAddr (s.reg x) ∧ t.pc = s.pc + 2 ∧ Keeps [.index] [] s t ∧ Ticks s.dt s.st s t := by
  unfold exec execLdFVx
  exact complete_of_setI rfl

/-- Settles O43: a step that writes only `I`, the sum of 16-bit words. -/
theorem addIWrapsAtSixteenBits : Obligations.AddIWrapsAtSixteenBits := by
  intro x s
  obtain ⟨t, ht, hi, hend⟩ := exec_addIVx_completes x s
  refine ⟨t, ht, ?_, hend⟩
  rw [hi, BitVec.toNat_add, zextByte_toNat]

/-- Settles O44: a step that writes only `I`, five times `Vx` not wrapping. -/
theorem ldFPointsAtTheGlyph : Obligations.LdFPointsAtTheGlyph := by
  intro x s
  obtain ⟨t, ht, hi, hend⟩ := exec_ldFVx_completes x s
  refine ⟨t, ht, ?_, hend⟩
  rw [hi, glyphAddr_toNat]

/-- The advance that ends `FX55` and `FX65` (R194, R195). -/
theorem advanceIndex_i_toNat (x : Reg) (s : State) : (advanceIndex x s).i.toNat = (s.i.toNat + x.val + 1) % 65536 := by
  simp [advanceIndex, Nat.add_assoc]

/-! ### Memory transfers -/

section

variable {bs : List Byte} {s : State}

theorem stored_peek {j : Nat} (h : j < bs.length) : (stored bs s).mem.peek (s.i.toNat + j) = bs[j] := by
  rw [stored, setMem_mem, Memory.peek_pokeBytes, dif_pos (by omega)]
  simp

theorem stored_peek_outside {a : Nat} (h : a < s.i.toNat ∨ s.i.toNat + bs.length ≤ a) :
    (stored bs s).mem.peek a = s.mem.peek a := by
  rw [stored, setMem_mem, Memory.peek_pokeBytes, dif_neg (by omega)]

end

/-- The faults of a store outside the program/data region, for an instruction that lists them (R56, R237). -/
theorem store_faults {i : Instr} {s : State} {n : Nat} (hmay : MayComplete s i → WritesInside s n)
    (hlisted : ∀ f, FaultOf s f i → if s.i.toNat < 0x200
      then f = .addressOutOfRange s.i.toNat .write .belowProgramBoundary s.pc
      else f = .addressOutOfRange (max s.i.toNat 4096) .write .beyondSpace s.pc) :
    (s.i.toNat < 0x200 → exec i s = .fault (.addressOutOfRange s.i.toNat .write .belowProgramBoundary s.pc)) ∧
    (n ≤ 16 → 4096 < s.i.toNat + n →
      exec i s = .fault (.addressOutOfRange (max s.i.toNat 4096) .write .beyondSpace s.pc)) := by
  refine ⟨fun h => exec_eq_fault (fun hm => ?_) fun f hf => ?_,
    fun hn16 h => exec_eq_fault (fun hm => ?_) fun f hf => ?_⟩
  · exact absurd (hmay hm).1 (by omega)
  · have := hlisted f hf
    rwa [if_pos h] at this
  · exact absurd (hmay hm).2 (by omega)
  · have := hlisted f hf
    rwa [if_neg (by omega)] at this

/-- Settles O45: the three digits stored from `I`, read back; the faults are those listed. -/
theorem ldBStoresDecimalDigits : Obligations.LdBStoresDecimalDigits := by
  intro x s
  have hv := (s.reg x).isLt
  obtain ⟨hbelow, hbeyond⟩ := store_faults (i := .ldBVx x) (s := s) (n := 3) id (fun _ hf => hf)
  refine ⟨formatXs_toNat 0xF000 x 0x33 rfl, fun h => ?_, hbelow, hbeyond (by omega)⟩
  have hdigit {j : Nat} (hj : j < 3) :
      (stored (bcdDigits (s.reg x)) s).mem.peek (s.i.toNat + j) = (bcdDigits (s.reg x))[j] := stored_peek hj
  refine ⟨_, exec_ldBVx h, ?_, ?_, ?_, fun a ha => stored_peek_outside (bs := bcdDigits (s.reg x)) ha,
    framed_of_next (exec_ldBVx h) rfl⟩
  · exact (congrArg _ (hdigit (j := 0) (by omega))).trans (by simp [bcdDigits]; omega)
  · exact (congrArg _ (hdigit (j := 1) (by omega))).trans (by simp [bcdDigits]; omega)
  · exact (congrArg _ (hdigit (j := 2) (by omega))).trans (by simp [bcdDigits]; omega)

/-- The values that `FX55` stores, read back. -/
theorem stored_regValues_peek {x k : Reg} (hk : k ≤ x) (s : State) :
    (stored (regValues s x) s).mem.peek (s.i.toNat + k.val) = s.reg k := by
  have hlt : k.val < (regValues s x).length := by
    rw [regValues_length]
    exact Nat.lt_succ_of_le hk
  rw [stored_peek hlt, regValues_getElem s x k.val hlt k.isLt]

/-- Settles O46: the registers stored from `I`, read back; the faults are those listed. -/
theorem ldMemStoresRegisters : Obligations.LdMemStoresRegisters := by
  intro x s
  obtain ⟨hbelow, hbeyond⟩ := store_faults (i := .ldMemVx x) (s := s) (n := x.val + 1) id (fun _ hf => hf)
  refine ⟨formatXs_toNat 0xF000 x 0x55 rfl, fun h => ?_, hbelow, hbeyond (by omega)⟩
  refine ⟨_, exec_ldMemVx h, fun k hk => stored_regValues_peek hk s, fun a ha => ?_, advanceIndex_i_toNat x _,
    framed_of_next (exec_ldMemVx h) rfl⟩
  exact stored_peek_outside (by rwa [regValues_length])

/-- Settles O47: the registers as the run of loads left them; the fault is the one listed. -/
theorem ldVxMemLoadsRegisters : Obligations.LdVxMemLoadsRegisters := by
  refine fun x s => ⟨formatXs_toNat 0xF000 x 0x65 rfl, fun h => ?_, exec_ldVxMem_beyond⟩
  obtain ⟨v, hexec, hloaded, hkept⟩ := exec_ldVxMem h
  exact ⟨_, hexec, hloaded, hkept, advanceIndex_i_toNat x _, framed_of_next hexec rfl⟩

/-- Settles O48: the store was inside memory, so the load is, and it reads the bytes stored. -/
theorem storeThenLoadRestoresRegisters : Obligations.StoreThenLoadRestoresRegisters := by
  intro x s t u hexec hmem hi
  obtain ⟨hlow, hhigh⟩ : WritesInside s (x.val + 1) := mayComplete_of_next hexec
  obtain ⟨t', ht', hstored, -⟩ := (ldMemStoresRegisters x s).2.1 ⟨hlow, hhigh⟩
  obtain rfl := Host.Outcome.next.inj (hexec.symm.trans ht')
  obtain ⟨w, hw, hloaded, -, hwi, -⟩ := (ldVxMemLoadsRegisters x u).2.1 (by rw [hi]; exact hhigh)
  refine ⟨w, hw, fun k hk => ?_, ?_⟩
  · rw [hloaded k hk, hmem, hi, hstored k hk]
  · rw [hwi, hi]
    omega

/-- Settles O49: both bytes are inside memory and were stored. -/
theorem fetchSeesStoredBytes : Obligations.FetchSeesStoredBytes := by
  intro x k s t u hexec hk hmem hpc
  obtain ⟨hlow, hhigh⟩ : WritesInside s (x.val + 1) := mayComplete_of_next hexec
  obtain ⟨t', ht', hstored, -⟩ := (ldMemStoresRegisters x s).2.1 ⟨hlow, hhigh⟩
  obtain rfl := Host.Outcome.next.inj (hexec.symm.trans ht')
  have hkx : k.val < x.val := hk
  have hnext : (k + 1).val = k.val + 1 := by
    rw [Fin.val_add, Fin.val_one]
    omega
  have hlo : t.mem.peek (s.i.toNat + k.val + 1) = s.reg (k + 1) := by
    rw [← hstored (k + 1) (Fin.le_def.2 (by omega)), hnext, Nat.add_assoc]
  refine ⟨_, fetch_eq (by omega), ?_⟩
  rw [ofBytes_toNat, hmem, hmem, hpc, hstored k hk.le, hlo]

/-! ### Timers and keys -/

/-- Settles O52: the tick of `FX15` took one from what it wrote, and `FX07` reads that before its own tick. -/
theorem delayTimerReadsOneLess : Obligations.DelayTimerReadsOneLess := by
  intro x y s t u hexec hdt
  obtain ⟨-, ⟨hticked, -, -⟩⟩ := everyCompletedInstructionTicksOnce (.ldDtVx x) s t hexec (by
    obtain rfl := Host.Outcome.next.inj hexec
    exact Report.noConfusion)
  refine ⟨_, exec_ldVxDt y u, ?_⟩
  rw [afterRegWrite_reg, hdt, hticked]
  rfl

theorem noKeyPressed_eq_false {s : State} {k : Fin 16} (h : s.keys[k] = true) : noKeyPressed s = false := by
  by_contra hno
  have := (noKeyPressed_iff s).1 (eq_true_of_ne_false hno) k
  exact Bool.false_ne_true (this.symm.trans h)

/-- The register that `FX0A` loads. -/
theorem keyTaken_reg (x : Reg) (s : State) : ((keyTaken x s).reg x).toNat = (chooseKey s).1.val := by
  rw [keyTaken, reg_setReg_same, BitVec.toNat_ofNat]
  omega

/-- Settles O54: the key taken is a pressed one; with none pressed the step is held. -/
theorem ldKWaitsForAKey : Obligations.LdKWaitsForAKey := by
  refine fun x s => ⟨fun ⟨k, hk⟩ => ?_, fun h => exec_ldVxK_held x ((noKeyPressed_iff s).2 h)⟩
  have hno := noKeyPressed_eq_false hk
  obtain ⟨-, hframe⟩ := framed_of_next (exec_ldVxK x hno) rfl
  exact ⟨_, exec_ldVxK x hno, ⟨_, chooseKey_pressed hno, keyTaken_reg x s⟩, rfl, hframe⟩

/-- Settles O55: a held step left the state but for the report, with no key pressed; the key set is then the only one. -/
theorem settingAKeyLiftsTheHold : Obligations.SettingAKeyLiftsTheHold := by
  intro x k s t hexec hheld
  rcases exec_next hexec with ⟨-, -, hno, rfl⟩ | ⟨v, -, rfl⟩
  · have hset : (s.keys.set k true)[k] = true := by simp
    obtain ⟨w, hw, ⟨j, hj, hwj⟩, hpc, hkeeps, hticks⟩ :=
      (ldKWaitsForAKey x { s.setReport .held with keys := s.keys.set k true }).1 ⟨k, hset⟩
    have hjk : j = k := by
      by_contra hne
      have hval : k.val ≠ j.val := fun e => hne (Fin.ext e.symm)
      have hold : s.keys[j] = true := by simpa [hval] using hj
      exact Bool.false_ne_true (((noKeyPressed_iff s).1 hno j).symm.trans hold)
    exact ⟨_, w, rfl, hw, hjk ▸ hwj, hpc, hkeeps, hticks⟩
  · cases hheld

end Sys2Proof.Machine
